-- ==== Sys2Proof/Word.lean ====
section
/-!
DEFINITION. The datum of the block: every register and every pixel-memory word is one 32-bit word (R10, R30, R60).
Fields of a word, the two readings of a word as a number, and pixels are in Decode.lean and Machine/Operands.lean.
-/

namespace Sys2Proof

/-- A 32-bit register value, pixel word or command word (R8: "32 bits for every register"). -/
abbrev Word := BitVec 32

/-- An 8-bit field of a word: a channel, the OPC field, the EOPC field (R90, R91, R32). -/
abbrev Byte := BitVec 8

end Sys2Proof
end

