-- ==== Sys2Proof/Config.lean ====
section
/-!
DEFINITION. The OPEN implementation parameters of R8, as one record. A chip fixes them; no step changes them.
A run's parameter values are part of its launch state (R246), so the record stands in State (log entry 1).
-/

namespace Sys2Proof

/-- SQUASH_OOB_FILL (R8, R161): what SQUASH does with a destination cell whose source is out of range. -/
inductive OobFill where
  /-- no write: the cell keeps its value, which may be Unwritten -/
  | keep
  /-- the cell is written with 0x00000000 -/
  | zero
deriving DecidableEq, Repr, Inhabited

/-- HOST_BYTE_ORDER (R8, R64): which byte address of a platform bus holds bits 31:24. No rule depends on it. DESIGN CHOICE (log entry 22): the
spec lists no values for it, and the model has two, the highest byte address and the lowest, and no mixed order. -/
inductive ByteOrder where
  /-- bits 31:24 at the highest of the four byte addresses -/
  | littleEndian
  /-- bits 31:24 at the lowest of the four byte addresses -/
  | bigEndian
deriving DecidableEq, Repr, Inhabited

/-- The OPEN parameters of R8. `hostByteOrder`, `regBase` and `pmemBase` are read by no definition of the model:
"No rule of this spec depends on" them (log entry 13). -/
structure Config where
  /-- the highest PMEM word address, PMEM_WORDS - 1; its type is R8's range 1 ≤ PMEM_WORDS ≤ 2^31 -/
  topWord : Fin 2147483648
  squashOobFill : OobFill
  hostByteOrder : ByteOrder
  regBase : Nat
  pmemBase : Nat
deriving DecidableEq, Repr, Inhabited

/-- PMEM_WORDS (R8): the number of words of pixel memory, from 1 to 2^31. -/
def Config.pmemWords (c : Config) : Nat := c.topWord.val + 1

/-- The parameters of the chip at hand. DESIGN CHOICE (log entry 1): no value is picked, nothing can be proved of it
beyond what its type says, so a statement about it holds of every chip. -/
opaque Config.chip : Config

end Sys2Proof
end

