-- ==== Sys2Proof/Machine/HostAction.lean ====
section
/-!
DEFINITION. What the host can do to the block: the types of the register slots (R30) and of the host's actions
(R61, R62, R98, R240). Their effects are in Machine/HostPort.lean.
-/

namespace Sys2Proof.Machine

/-- The 16 word slots of the register port, in the order of their offsets 0x00, 0x04, …, 0x3C (R30). -/
inductive Slot where
  | cmd | status | result | reserved0C
  | srcBase | srcWidth | srcHeight | reserved1C
  | dstBase | dstWidth | dstHeight | reserved2C
  | arg0 | arg1 | arg2 | arg3
deriving DecidableEq, Repr

/-- One action of the host's list (R246). Offsets and addresses are plain numbers here, wider than the ports, so that
an access the block refuses (R213) can be written down: spec vector L2-X18 issues offset 0x40. -/
inductive HostAction where
  /-- RegWrite(off, v), R61: `wreg` -/
  | regWrite (off : Nat) (v : Word)
  /-- RegRead(off), R61: `rreg` -/
  | regRead (off : Nat)
  /-- HostMemWrite(a, v), R62: `wmem` -/
  | memWrite (a : Nat) (v : Word)
  /-- HostMemRead(a), R62: `rmem` -/
  | memRead (a : Nat)
  /-- an access of either port with a width other than 32 bits, R61 and R213 -/
  | otherWidth (bits : Nat)
  /-- a reset while powered, R240 -/
  | reset
  /-- a power-on reset, R240 and R42 -/
  | powerOn
deriving DecidableEq, Repr

end Sys2Proof.Machine
end

