-- ==== Sys2Proof/Syntax.lean ====
section
/-!
DEFINITION. The ten commands of R94, one constructor per row of spec/opcode_table.json.
A command word has no operand field (R93): every operand is read from a fixed register (R33, R34).
-/

namespace Sys2Proof

/-- A command of the block (R94). -/
inductive Instr where
  /-- MAKE_PIXEL, R124 -/
  | makePixel
  /-- GET_RED, R125 -/
  | getRed
  /-- GET_GREEN, R126 -/
  | getGreen
  /-- GET_BLUE, R127 -/
  | getBlue
  /-- GET_ALPHA, R128 -/
  | getAlpha
  /-- INDEX, R145 -/
  | index
  /-- SQUASH, R160 -/
  | squash
  /-- COLOR_ROTATE, R171 -/
  | colorRotate
  /-- BLUR, R182 -/
  | blur
  /-- EXPAND, R191 -/
  | expand
deriving DecidableEq, Repr

end Sys2Proof
end

