-- ==== Sys2Proof/WellFormed.lean ====
section
/-!
DEFINITION. Well-formedness checks: of a command, of a 32-bit command word (R91, R94, R95), and of a host action (R61, R62, R213).
They are written from the spec's tables on their own; that the decoder and the step agree with them is stated as obligations.
-/

namespace Sys2Proof

/-- Every command is well formed: a command has no operand (R93), so there is nothing to check. -/
abbrev Instr.WellFormed (_ : Instr) : Prop := True

/-- R95 turned round: a command word is legal exactly when RSV is 0 and OPC is one of 0x01 to 0x0A. -/
def commandWordOk (w : Word) : Bool :=
  w.extractLsb 31 8 == 0#24 && decide (0x01 ≤ (w.extractLsb 7 0).toNat) && decide ((w.extractLsb 7 0).toNat ≤ 0x0A)

namespace Machine

/-- A register offset the register port accepts: a multiple of 4, at most 0x3C (R61). -/
def offsetOk (off : Nat) : Bool := off % 4 == 0 && decide (off ≤ 0x3C)

/-- A PMEM address the memory port accepts (R62). -/
def addressOk (c : Config) (a : Nat) : Bool := decide (a < c.pmemWords)

/-- The host actions that R213 does not refuse. -/
def HostAction.wellFormed (c : Config) : HostAction → Bool
  | .regWrite off _ => offsetOk off
  | .regRead off => offsetOk off
  | .memWrite a _ => addressOk c a
  | .memRead a => addressOk c a
  | .otherWidth _ => false
  | .reset => true
  | .powerOn => true

end Machine
end Sys2Proof
end

