-- ==== Sys2Proof/Decode.lean ====
section
/-!
DEFINITION. Decoding a command word (R91 to R96) and, after it, the encoder (R94).
A command is the whole 32-bit value of one RegWrite to CMD (R92), so the decoder reads a word and never bytes: the block has
no byte order (R64).
-/

namespace Sys2Proof

/-- OPC, bits 7:0 of a command word (R91). -/
def opcField (w : Word) : Byte := w.extractLsb 7 0

/-- RSV, bits 31:8 of a command word (R91). -/
def rsvField (w : Word) : BitVec 24 := w.extractLsb 31 8

/-- Why a word is no command (R95). All three raise the same error, ILLEGAL_CMD. -/
inductive IllegalWord where
  /-- RSV ≠ 0 -/
  | reservedBits
  /-- RSV = 0 and OPC = 0x00 -/
  | opcodeZero
  /-- RSV = 0 and OPC from 0x0B to 0xFF -/
  | opcodeUnassigned
deriving DecidableEq, Repr

/-- R96, total on every 32-bit word; an illegal word is rejected by the name of what is wrong with it. -/
def decode (w : Word) : Except IllegalWord Instr :=
  if rsvField w ≠ 0#24 then .error .reservedBits
  else match (opcField w).toNat with
    | 0x00 => .error .opcodeZero
    | 0x01 => .ok .makePixel
    | 0x02 => .ok .getRed
    | 0x03 => .ok .getGreen
    | 0x04 => .ok .getBlue
    | 0x05 => .ok .getAlpha
    | 0x06 => .ok .index
    | 0x07 => .ok .squash
    | 0x08 => .ok .colorRotate
    | 0x09 => .ok .blur
    | 0x0A => .ok .expand
    | _ => .error .opcodeUnassigned

/-- The command word of a command (R94). -/
def encode : Instr → Word
  | .makePixel => 0x00000001#32
  | .getRed => 0x00000002#32
  | .getGreen => 0x00000003#32
  | .getBlue => 0x00000004#32
  | .getAlpha => 0x00000005#32
  | .index => 0x00000006#32
  | .squash => 0x00000007#32
  | .colorRotate => 0x00000008#32
  | .blur => 0x00000009#32
  | .expand => 0x0000000A#32

/-- The 32-bit word of a table row's bits: bits at and above `nbits` are 0. Every row has 32 bits (R92). -/
def tableWord (nbits w : Nat) : Word := BitVec.ofNat 32 (w % 2 ^ nbits)

/-- The command the decoder reads from a word numbered as spec/opcode_table.json numbers it. A word is one register value,
so there are no bytes to lay out, and no command is longer than 32 bits (log entry 18). -/
def decodeTableWord (nbits w : Nat) : Option Instr :=
  if nbits ≤ 32 then
    match decode (tableWord nbits w) with
    | .ok i => some i
    | .error _ => none
  else none

end Sys2Proof
end

