-- ==== Sys2Proof/Machine/State.lean ====
section
/-!
DEFINITION. The state of the machine (R41) as plain data, the reasons a step can stop (R212, R213), the error codes (R200),
and the state after a power-on reset (R42).
-/

namespace Sys2Proof.Machine

/-- The command errors, ECODE 1 to 9 (R200). An error is no fault of the model: it is recorded in STATUS and the machine goes
on (R203). The number of each is `ErrCode.ecode` in Machine/Flags.lean. -/
inductive ErrCode where
  /-- ILLEGAL_CMD -/
  | illegalCmd
  /-- BAD_DIM_SRC -/
  | badDimSrc
  /-- RANGE_SRC -/
  | rangeSrc
  /-- BAD_DIM_DST -/
  | badDimDst
  /-- RANGE_DST -/
  | rangeDst
  /-- ALIAS -/
  | aliasRegions
  /-- DIM_MISMATCH -/
  | dimMismatch
  /-- BAD_PARAM -/
  | badParam
  /-- OOB_INDEX -/
  | oobIndex
deriving DecidableEq, Repr

/-- The model faults of R212. They are outcomes of the model, never recorded in STATUS. -/
inductive Fault where
  /-- UNWRITTEN_READ: raised by a HostMemRead and by SQUASH, COLOR_ROTATE, BLUR and EXPAND when they read a PMEM word that
  nothing has written since power-on (R77, R212). The hardware returns an unspecified value and goes on. SAFE: the model stops
  where the hardware goes on. -/
  | unwrittenRead
  /-- AVG_EMPTY: raised by `avg` on an empty list (R123, R212). No caller reaches it. SAFE: never taken. -/
  | avgEmpty
deriving DecidableEq, Repr

/-- The host accesses the block gives no meaning to (R213), and the rejection of a command with no meaning. -/
inductive Refusal where
  /-- An instruction of the opcode table without a meaning, by its mnemonic; raised by no arm of `exec` in this model. SAFE. -/
  | notModelled (mnemonic : String)
  /-- RegWrite or RegRead at an offset that is not a multiple of 4; raised by the register port (R61, R213). SAFE: the run is stuck. -/
  | misalignedOffset
  /-- RegWrite or RegRead at an aligned offset above 0x3C; raised by the register port (R61, R213). SAFE: the run is stuck. -/
  | offsetBeyondSlots
  /-- HostMemWrite or HostMemRead at an address at or above PMEM_WORDS; raised by the memory port (R62, R213). SAFE: the run is stuck. -/
  | addressBeyondPmem
  /-- An access of a width other than 32 bits; raised by both ports (R61, R213). SAFE: the run is stuck. -/
  | otherWidth
deriving DecidableEq, Repr

/-- PMEM (R41, R60): the Written words, as (word address, value), addresses strictly rising. An address that is not listed is
Unwritten and has no value (R77; log entries 3 and 4). The unit is the 32-bit word: "No smaller unit is addressable" (R60). -/
abbrev Memory := List (Nat × Word)

/-- The state record of R41, and four fields of the model's own: the launch parameters (R8, R246; log entry 1), the host's
action list with its position, and the values its reads returned (R246, R247; log entry 2). -/
structure State where
  /-- STATUS (R32) -/
  status : Word
  /-- RESULT (R35) -/
  result : Word
  /-- SRC_BASE (R33) -/
  srcBase : Word
  /-- SRC_WIDTH (R33) -/
  srcWidth : Word
  /-- SRC_HEIGHT (R33) -/
  srcHeight : Word
  /-- DST_BASE (R33) -/
  dstBase : Word
  /-- DST_WIDTH (R33) -/
  dstWidth : Word
  /-- DST_HEIGHT (R33) -/
  dstHeight : Word
  /-- ARG0 (R34) -/
  arg0 : Word
  /-- ARG1 (R34) -/
  arg1 : Word
  /-- ARG2 (R34) -/
  arg2 : Word
  /-- ARG3 (R34) -/
  arg3 : Word
  /-- PMEM (R41, R60) -/
  pmem : Memory
  /-- the model fault record (R41, R212): once set it is never removed -/
  fault : Option Fault
  /-- the implementation parameters (R8); no step changes them -/
  cfg : Config
  /-- the host's actions not yet taken, next one first (R246) -/
  pending : List HostAction
  /-- the index of the next host action (R37, R246) -/
  position : Nat
  /-- the values returned by RegRead and HostMemRead so far, oldest first (R247) -/
  reads : List Word
deriving DecidableEq, Repr

/-- The machine right after a power-on reset (R42): every register 0, every PMEM word Unwritten, no fault recorded. The host's
list is empty, since a program is loaded from outside (log entry 2), and the parameters are those of the chip (log entry 1). -/
def State.reset : State where
  status := 0x00000000#32
  result := 0x00000000#32
  srcBase := 0x00000000#32
  srcWidth := 0x00000000#32
  srcHeight := 0x00000000#32
  dstBase := 0x00000000#32
  dstWidth := 0x00000000#32
  dstHeight := 0x00000000#32
  arg0 := 0x00000000#32
  arg1 := 0x00000000#32
  arg2 := 0x00000000#32
  arg3 := 0x00000000#32
  pmem := []
  fault := none
  cfg := Config.chip
  pending := []
  position := 0
  reads := []

end Sys2Proof.Machine
end

