-- ==== Sys2Proof/Machine/Flags.lean ====
section
/-!
DEFINITION. STATUS: its fields (R32), the number of each error code (R200), the word an error records (R203), and the effect
of a host write (R32). The block has no other flag or condition code (R38).
-/

namespace Sys2Proof.Machine

/-- The ECODE of an error (R200). It equals the rank of its check (R202). -/
def ErrCode.ecode : ErrCode → Nat
  | .illegalCmd => 1
  | .badDimSrc => 2
  | .rangeSrc => 3
  | .badDimDst => 4
  | .rangeDst => 5
  | .aliasRegions => 6
  | .dimMismatch => 7
  | .badParam => 8
  | .oobIndex => 9

/-- STATUS.ERR, bit 0 (R32): the error state. -/
def errFlag (status : Word) : Bool := status.getLsbD 0

/-- STATUS.ECODE, bits 7:4 (R32). -/
def ecodeField (status : Word) : BitVec 4 := status.extractLsb 7 4

/-- STATUS.EOPC, bits 15:8 (R32). -/
def eopcField (status : Word) : Byte := status.extractLsb 15 8

/-- The STATUS word of error `e` raised by command word `w` (R203): `(w[7:0] << 8) | (CODE << 4) | 1`. -/
def errorStatus (e : ErrCode) (w : Word) : Word :=
  ((opcField w).setWidth 32 <<< 8) ||| (BitVec.ofNat 32 e.ecode <<< 4) ||| 1#32

/-- STATUS after a host write of `v` to it (R32): bit 0 of `v` set clears all of it, anything else has no effect. -/
def statusAfterWrite (status v : Word) : Word := if v.getLsbD 0 then 0x00000000#32 else status

/-- The values STATUS can hold (R32, R41): bits 3:1 and 31:16 are 0; with ERR = 0 the whole register is 0; with ERR = 1 ECODE is
1 to 9 and EOPC any byte. -/
def statusLegal (status : Word) : Bool :=
  status.extractLsb 3 1 == 0#3 && status.extractLsb 31 16 == 0#16 &&
    (if errFlag status then decide (1 ≤ (ecodeField status).toNat) && decide ((ecodeField status).toNat ≤ 9)
     else status == 0x00000000#32)

end Sys2Proof.Machine
end

