-- ==== Sys2Proof/Machine/Operands.lean ====
section
/-!
DEFINITION. How a command reads its operands: the two readings of a word (R11, R93), the channels of a pixel (R90, R120, R121),
and the raster descriptors (R140, R141).
-/

namespace Sys2Proof.Machine

/-- `uint(v)` (R11): the word as an unsigned integer. Base addresses are read so (R93). -/
def uint (v : Word) : Nat := v.toNat

/-- `sint(v)` (R11): the word as a two's-complement integer. Dimensions, row, col, factors and blurDist are read so (R93). -/
def sint (v : Word) : Int := v.toInt

/-- `zext_32(u)` (R11): the 32-bit value of an unsigned integer below 2^32. -/
def zext32 (u : Nat) : Word := BitVec.ofNat 32 u

/-- `chR(p) = p[31:24]` (R121). -/
def chR (p : Word) : Nat := (p.extractLsb 31 24).toNat

/-- `chG(p) = p[23:16]` (R121). -/
def chG (p : Word) : Nat := (p.extractLsb 23 16).toNat

/-- `chB(p) = p[15:8]` (R121). -/
def chB (p : Word) : Nat := (p.extractLsb 15 8).toNat

/-- `chA(p) = p[7:0]` (R121). -/
def chA (p : Word) : Nat := (p.extractLsb 7 0).toNat

/-- A channel operand of MAKE_PIXEL: bits 7:0 of an ARG register, the others ignored (R93, R124). -/
def channelOperand (v : Word) : Nat := (v.extractLsb 7 0).toNat

/-- `pack(r, g, b, a)` (R120): each channel modulo 256, red in bits 31:24, alpha in bits 7:0. -/
def pack (r g b a : Nat) : Word :=
  BitVec.ofNat 8 r ++ BitVec.ofNat 8 g ++ BitVec.ofNat 8 b ++ BitVec.ofNat 8 a

/-- A raster descriptor (R140): the base read as uint, the width and height as sint. -/
structure Raster where
  base : Nat
  width : Int
  height : Int
deriving DecidableEq, Repr

/-- SRC (R33, R140), written (sb, sw, sh) in the command rules. -/
def srcRaster (s : State) : Raster := ⟨uint s.srcBase, sint s.srcWidth, sint s.srcHeight⟩

/-- DST (R33, R140), written (db, dw, dh) in the command rules. -/
def dstRaster (s : State) : Raster := ⟨uint s.dstBase, sint s.dstWidth, sint s.dstHeight⟩

/-- The width as a count of columns, for a descriptor that passed its check (there it is at least 1). -/
def Raster.cols (r : Raster) : Nat := r.width.toNat

/-- The height as a count of rows, for a descriptor that passed its check (there it is at least 1). -/
def Raster.rows (r : Raster) : Nat := r.height.toNat

/-- The first address after the region, `base + w*h`, with the product exact (R141, R144). -/
def Raster.endAddr (r : Raster) : Int := (r.base : Int) + r.width * r.height

/-- `lin(w, row, col) = row*w + col` (R141). -/
def lin (w row col : Nat) : Nat := row * w + col

/-- The PMEM word address of pixel (row, col) of a raster: `base + lin(w, row, col)` (R141, R143). -/
def Raster.addr (r : Raster) (row col : Nat) : Nat := r.base + lin r.cols row col

end Sys2Proof.Machine
end

