-- ==== Sys2Proof/Machine/Ops.lean ====
section
/-!
DEFINITION. The operations the commands share: PMEM (R15, R62), the state updates of a command, raising an error (R203), the
descriptor and overlap checks (R142, R144), running a checked command (R202), reading pixels (R143) and writing the cells of a
destination raster.
-/

namespace Sys2Proof.Machine

/-! ## Pixel memory -/

/-- The word at address `a`, none if it is Unwritten (R41, R77). -/
def Memory.read : Memory → Nat → Option Word
  | [], _ => none
  | (b, v) :: m, a => if a = b then some v else Memory.read m a

/-- `PMEM[a] <- Written v` (R62), keeping the addresses strictly rising. -/
def Memory.write : Memory → Nat → Word → Memory
  | [], a, v => [(a, v)]
  | (b, w) :: m, a, v =>
    if a < b then (a, v) :: (b, w) :: m
    else if a = b then (a, v) :: m
    else (b, w) :: Memory.write m a v

/-- Every word of `[lo, hi)` becomes Unwritten (R240, used by `resetInsideCommand` alone). -/
def Memory.eraseRange (m : Memory) (lo hi : Nat) : Memory :=
  m.filter fun c => !(decide (lo ≤ c.1) && decide (c.1 < hi))

/-- The canonical form: addresses strictly rising. -/
def Memory.wf : Memory → Bool
  | [] => true
  | [_] => true
  | (a, _) :: (b, w) :: m => decide (a < b) && Memory.wf ((b, w) :: m)

/-- Every listed word lies in PMEM: its address is below PMEM_WORDS (R60). -/
def Memory.inside (words : Nat) (m : Memory) : Bool := m.all fun c => decide (c.1 < words)

/-! ## What a command writes -/

/-- `x[STATUS] <- v`. -/
def State.setStatus (s : State) (v : Word) : State := { s with status := v }

/-- `x[RESULT] <- v` (R35). -/
def State.setResult (s : State) (v : Word) : State := { s with result := v }

/-- The state with another pixel memory. -/
def State.setPmem (s : State) (m : Memory) : State := { s with pmem := m }

/-! ## Errors -/

/-- Error entry, `raise Error(CODE)` by the command with word `w` (R203): STATUS records EOPC, ECODE and ERR = 1, and nothing
else changes. The block has no vector, no mode and no saved state; leaving the error state is `statusAfterWrite` (R205). -/
def raiseError (e : ErrCode) (w : Word) (s : State) : State := s.setStatus (errorStatus e w)

/-- A check: the error `e` if `p` holds. -/
def failIf (p : Prop) [Decidable p] (e : ErrCode) : Option ErrCode := if p then some e else none

/-- The first check that fails, of checks in the order a command runs them (R202). -/
def firstError : List (Option ErrCode) → Option ErrCode
  | [] => none
  | some e :: _ => some e
  | none :: checks => firstError checks

/-- checkSrc, first half (R142): BAD_DIM_SRC. -/
def checkSrcDim (s : State) : Option ErrCode :=
  failIf ((srcRaster s).width < 1 ∨ (srcRaster s).height < 1) .badDimSrc

/-- checkSrc, second half (R142): RANGE_SRC, with exact arithmetic. -/
def checkSrcRange (s : State) : Option ErrCode := failIf ((srcRaster s).endAddr > s.cfg.pmemWords) .rangeSrc

/-- checkDst, first half (R142): BAD_DIM_DST. -/
def checkDstDim (s : State) : Option ErrCode :=
  failIf ((dstRaster s).width < 1 ∨ (dstRaster s).height < 1) .badDimDst

/-- checkDst, second half (R142): RANGE_DST, with exact arithmetic. -/
def checkDstRange (s : State) : Option ErrCode := failIf ((dstRaster s).endAddr > s.cfg.pmemWords) .rangeDst

/-- checkNoAlias (R144). -/
def checkNoAlias (s : State) : Option ErrCode :=
  failIf (((srcRaster s).base : Int) < (dstRaster s).endAddr ∧ ((dstRaster s).base : Int) < (srcRaster s).endAddr)
    .aliasRegions

/-- `checkSrc()` (R142). -/
def checkSrc (s : State) : List (Option ErrCode) := [checkSrcDim s, checkSrcRange s]

/-- `checkSrc() ; checkDst() ; checkNoAlias()`, the checks every transform begins with (R142, R144, R202). -/
def transformChecks (s : State) : List (Option ErrCode) :=
  [checkSrcDim s, checkSrcRange s, checkDstDim s, checkDstRange s, checkNoAlias s]

/-- A command with its checks: the first that fails raises its error with the command's own word, before any write; if none
fails the effect happens (R97, R202, R203). A model fault inside the effect ends the step (R212). -/
def runChecked (i : Instr) (checks : List (Option ErrCode)) (effect : Except Fault State) (s : State) :
    Host.Outcome State Fault Refusal :=
  match firstError checks with
  | some e => .next (raiseError e (encode i) s)
  | none =>
    match effect with
    | .ok t => .next t
    | .error f => .fault f

/-! ## Engine accesses -/

/-- `MemRead(a, 1)` (R15): an Unwritten word is the model fault UNWRITTEN_READ (R77, R212). -/
def engineRead (m : Memory) (a : Nat) : Except Fault Word :=
  match m.read a with
  | some v => .ok v
  | none => .error .unwrittenRead

/-- `P_S(row, col)` (R143): a pixel of the source raster. -/
def sourcePixel (src : Raster) (m : Memory) (row col : Nat) : Except Fault Word := engineRead m (src.addr row col)

/-- The coordinates of a raster of `h` rows and `w` columns in row-major order: the order of the command rules' loops (R76). -/
def cells (h w : Nat) : List (Nat × Nat) :=
  (List.range h).flatMap fun row => (List.range w).map fun col => (row, col)

/-- The loop of a transform over the destination cells. For each cell, `cell` gives the word to write, or none for no write
(R161), from the memory as it is then; the word goes to the cell's address in `dst` (R143). -/
def storeCells (dst : Raster) (cell : Memory → Nat → Nat → Except Fault (Option Word)) :
    List (Nat × Nat) → Memory → Except Fault Memory
  | [], m => .ok m
  | (row, col) :: rest, m =>
    match cell m row col with
    | .error f => .error f
    | .ok none => storeCells dst cell rest m
    | .ok (some v) => storeCells dst cell rest (m.write (dst.addr row col) v)

/-- The effect of a transform: its loop over `h` rows and `w` columns of DST, and no other change of the state (R63, R75). -/
def transformEffect (cell : Memory → Nat → Nat → Except Fault (Option Word)) (h w : Nat) (s : State) : Except Fault State :=
  match storeCells (dstRaster s) cell (cells h w) s.pmem with
  | .ok m => .ok (s.setPmem m)
  | .error f => .error f

/-- A cell that is always written: the pixel as the word to write. -/
def written (p : Except Fault Word) : Except Fault (Option Word) :=
  match p with
  | .ok v => .ok (some v)
  | .error f => .error f

/-- The pixels at a list of source coordinates, in that order; `pixel` is P_S (R143). -/
def gather (pixel : Nat → Nat → Except Fault Word) : List (Nat × Nat) → Except Fault (List Word)
  | [] => .ok []
  | (row, col) :: rest =>
    match pixel row col with
    | .error f => .error f
    | .ok p =>
      match gather pixel rest with
      | .error f => .error f
      | .ok ps => .ok (p :: ps)

end Sys2Proof.Machine
end

