-- ==== Sys2Proof/Machine/ColorRotate.lean ====
section
/-!
DEFINITION. The color_channel_rotator block: COLOR_ROTATE (R170 to R172).
-/

namespace Sys2Proof.Machine

/-- `rot(p) = pack(chB(p), chR(p), chG(p), chA(p))` (R170). -/
def rot (p : Word) : Word := pack (chB p) (chR p) (chG p) (chA p)

/-- One destination cell of COLOR_ROTATE (R171). -/
def rotateCell (src : Raster) (m : Memory) (row col : Nat) : Except Fault (Option Word) :=
  written (match sourcePixel src m row col with
    | .ok p => .ok (rot p)
    | .error f => .error f)

/-- DST has the size of SRC (R171, R182); DIM_MISMATCH otherwise. -/
def checkSameSize (s : State) : Option ErrCode :=
  failIf ((dstRaster s).width ≠ (srcRaster s).width ∨ (dstRaster s).height ≠ (srcRaster s).height) .dimMismatch

/-- COLOR_ROTATE (R171). -/
def execColorRotate (s : State) : Host.Outcome State Fault Refusal :=
  runChecked .colorRotate (transformChecks s ++ [checkSameSize s])
    (transformEffect (rotateCell (srcRaster s)) (srcRaster s).rows (srcRaster s).cols s) s

end Sys2Proof.Machine
end

