-- ==== Sys2Proof/Machine/PixelCodec.lean ====
section
/-!
DEFINITION. The pixel_codec block: the averaging helper (R123) and the five codec commands (R124 to R128). They have no checks,
touch no PMEM and write RESULT alone.
-/

namespace Sys2Proof.Machine

/-- The exact sum of one channel over a list of pixels (R123): it never wraps. -/
def channelSum (ch : Word → Nat) (l : List Word) : Nat := (l.map ch).sum

/-- The averaging helper (R123): each lane's sum divided by the count, truncating. On the empty list it is the model fault
AVG_EMPTY (R212), which no caller reaches. -/
def avg (l : List Word) : Except Fault Word :=
  if l.length = 0 then .error .avgEmpty
  else .ok (pack (channelSum chR l / l.length) (channelSum chG l / l.length) (channelSum chB l / l.length)
    (channelSum chA l / l.length))

/-- MAKE_PIXEL (R124). -/
def execMakePixel (s : State) : Host.Outcome State Fault Refusal :=
  .next (s.setResult (pack (channelOperand s.arg0) (channelOperand s.arg1) (channelOperand s.arg2) (channelOperand s.arg3)))

/-- GET_RED (R125). -/
def execGetRed (s : State) : Host.Outcome State Fault Refusal := .next (s.setResult (zext32 (chR s.arg0)))

/-- GET_GREEN (R126). -/
def execGetGreen (s : State) : Host.Outcome State Fault Refusal := .next (s.setResult (zext32 (chG s.arg0)))

/-- GET_BLUE (R127). -/
def execGetBlue (s : State) : Host.Outcome State Fault Refusal := .next (s.setResult (zext32 (chB s.arg0)))

/-- GET_ALPHA (R128). -/
def execGetAlpha (s : State) : Host.Outcome State Fault Refusal := .next (s.setResult (zext32 (chA s.arg0)))

end Sys2Proof.Machine
end

