-- ==== Sys2Proof/Machine/Blur.lean ====
section
/-!
DEFINITION. The blur_engine block: BLUR (R180 to R183).
-/

namespace Sys2Proof.Machine

/-- The numbers lo, lo+1, …, hi (R12), none if hi < lo. -/
def upTo (lo hi : Nat) : List Nat := List.range' lo (hi + 1 - lo)

/-- The coordinates of the window of (row, col) for distance `d`, row-major (R180): each side clamped on its own. Natural subtraction is
`max(0, · - d)`. -/
def windowCells (sh sw d row col : Nat) : List (Nat × Nat) :=
  (upTo (row - d) (min (sh - 1) (row + d))).flatMap fun r =>
    (upTo (col - d) (min (sw - 1) (col + d))).map fun c => (r, c)

/-- `blurPixel(row, col)` (R181): the means of red, green and blue over the window, the alpha of the centre pixel. -/
def blurPixel (src : Raster) (d : Nat) (m : Memory) (row col : Nat) : Except Fault Word :=
  match gather (sourcePixel src m) (windowCells src.rows src.cols d row col) with
  | .error f => .error f
  | .ok window =>
    match avg window with
    | .error f => .error f
    | .ok q =>
      match sourcePixel src m row col with
      | .error f => .error f
      | .ok centre => .ok (pack (chR q) (chG q) (chB q) (chA centre))

/-- One destination cell of BLUR (R182). -/
def blurCell (src : Raster) (d : Nat) (m : Memory) (row col : Nat) : Except Fault (Option Word) :=
  written (blurPixel src d m row col)

/-- BLUR's parameter check (R182): blurDist, ARG0 as sint, is not negative. -/
def checkDistance (s : State) : Option ErrCode := failIf (sint s.arg0 < 0) .badParam

/-- BLUR (R182). -/
def execBlur (s : State) : Host.Outcome State Fault Refusal :=
  runChecked .blur (transformChecks s ++ [checkSameSize s, checkDistance s])
    (transformEffect (blurCell (srcRaster s) (sint s.arg0).toNat) (srcRaster s).rows (srcRaster s).cols s) s

end Sys2Proof.Machine
end

