-- ==== Sys2Proof/Machine/Expand.lean ====
section
/-!
DEFINITION. The expand_interpolator block: EXPAND (R190 to R192).
-/

namespace Sys2Proof.Machine

/-- The candidate list L of output cell (i, j) as source coordinates (R190), each neighbour only where it is in bounds. -/
def candidates (sh sw i j : Nat) : List (Nat × Nat) :=
  [(i / 2, j / 2)]
    ++ (if j % 2 = 1 ∧ j / 2 + 1 < sw then [(i / 2, j / 2 + 1)] else [])
    ++ (if i % 2 = 1 ∧ i / 2 + 1 < sh then [(i / 2 + 1, j / 2)] else [])
    ++ (if i % 2 = 1 ∧ j % 2 = 1 ∧ j / 2 + 1 < sw ∧ i / 2 + 1 < sh then [(i / 2 + 1, j / 2 + 1)] else [])

/-- `expandPixel(i, j)` (R190): an exact copy where both are even, the mean of all four lanes over the candidates otherwise. -/
def expandPixel (src : Raster) (m : Memory) (i j : Nat) : Except Fault Word :=
  if i % 2 = 0 ∧ j % 2 = 0 then sourcePixel src m (i / 2) (j / 2)
  else
    match gather (sourcePixel src m) (candidates src.rows src.cols i j) with
    | .error f => .error f
    | .ok l => avg l

/-- One destination cell of EXPAND (R191). -/
def expandCell (src : Raster) (m : Memory) (i j : Nat) : Except Fault (Option Word) := written (expandPixel src m i j)

/-- DST is twice SRC in each axis, exactly (R191); DIM_MISMATCH otherwise. -/
def checkDoubleSize (s : State) : Option ErrCode :=
  failIf ((dstRaster s).width ≠ 2 * (srcRaster s).width ∨ (dstRaster s).height ≠ 2 * (srcRaster s).height) .dimMismatch

/-- EXPAND (R191). -/
def execExpand (s : State) : Host.Outcome State Fault Refusal :=
  runChecked .expand (transformChecks s ++ [checkDoubleSize s])
    (transformEffect (expandCell (srcRaster s)) (dstRaster s).rows (dstRaster s).cols s) s

end Sys2Proof.Machine
end

