-- ==== Sys2Proof/Machine/RasterBuffer.lean ====
section
/-!
DEFINITION. The raster_buffer block: INDEX (R145).
-/

namespace Sys2Proof.Machine

/-- INDEX's bounds check (R145): row and col are ARG0 and ARG1 as sint, against the SRC raster. -/
def checkIndexBounds (s : State) : Option ErrCode :=
  failIf (sint s.arg0 < 0 ∨ sint s.arg0 ≥ (srcRaster s).height ∨ sint s.arg1 < 0 ∨ sint s.arg1 ≥ (srcRaster s).width)
    .oobIndex

/-- INDEX (R145): the linear index, not the address; SRC_BASE is checked but not added. -/
def execIndex (s : State) : Host.Outcome State Fault Refusal :=
  runChecked .index (checkSrc s ++ [checkIndexBounds s])
    (.ok (s.setResult (zext32 (lin (srcRaster s).cols (sint s.arg0).toNat (sint s.arg1).toNat)))) s

end Sys2Proof.Machine
end

