-- ==== Sys2Proof/Machine/Squash.lean ====
section
/-!
DEFINITION. The squash_downsampler block: SQUASH (R160 to R162).
-/

namespace Sys2Proof.Machine

/-- What SQUASH does with an out-of-range cell (R161): no write, or a write of zero, as the chip's SQUASH_OOB_FILL says. -/
def squashFill : OobFill → Option Word
  | .keep => none
  | .zero => some 0x00000000#32

/-- One destination cell of SQUASH (R160, R161), for factors `xf` and `yf` of at least 1: the source pixel at (row*yf, col*xf) copied verbatim if
it is in range, the fill otherwise. -/
def squashCell (src : Raster) (xf yf : Nat) (fill : OobFill) (m : Memory) (row col : Nat) : Except Fault (Option Word) :=
  if row * yf < src.rows ∧ col * xf < src.cols then written (sourcePixel src m (row * yf) (col * xf))
  else .ok (squashFill fill)

/-- SQUASH's parameter check (R160): both factors, ARG0 and ARG1 as sint, are at least 1. -/
def checkFactors (s : State) : Option ErrCode := failIf (sint s.arg0 < 1 ∨ sint s.arg1 < 1) .badParam

/-- SQUASH (R160). -/
def execSquash (s : State) : Host.Outcome State Fault Refusal :=
  runChecked .squash (transformChecks s ++ [checkFactors s])
    (transformEffect (squashCell (srcRaster s) (sint s.arg0).toNat (sint s.arg1).toNat s.cfg.squashOobFill)
      (dstRaster s).rows (dstRaster s).cols s) s

end Sys2Proof.Machine
end

