-- ==== Sys2Proof/Machine/Dispatch.lean ====
section
/-!
DEFINITION. The rule of each command (R94): one arm per row of the opcode table.
-/

namespace Sys2Proof.Machine

def exec (i : Instr) (s : State) : Host.Outcome State Fault Refusal :=
  match i with
  | .makePixel => Sys2Proof.Machine.execMakePixel s
  | .getRed => Sys2Proof.Machine.execGetRed s
  | .getGreen => Sys2Proof.Machine.execGetGreen s
  | .getBlue => Sys2Proof.Machine.execGetBlue s
  | .getAlpha => Sys2Proof.Machine.execGetAlpha s
  | .index => Sys2Proof.Machine.execIndex s
  | .squash => Sys2Proof.Machine.execSquash s
  | .colorRotate => Sys2Proof.Machine.execColorRotate s
  | .blur => Sys2Proof.Machine.execBlur s
  | .expand => Sys2Proof.Machine.execExpand s

end Sys2Proof.Machine
end

