-- ==== Sys2Proof/Machine/HostPort.lean ====
section
/-!
DEFINITION. What each host action does (R61, R62, R97, R240) and how one action of the host's list is taken (R246).
Step.lean only calls `hostStep`.
-/

namespace Sys2Proof.Machine

/-- The byte offset of a slot (R30). -/
def Slot.offset : Slot → Nat
  | .cmd => 0x00
  | .status => 0x04
  | .result => 0x08
  | .reserved0C => 0x0C
  | .srcBase => 0x10
  | .srcWidth => 0x14
  | .srcHeight => 0x18
  | .reserved1C => 0x1C
  | .dstBase => 0x20
  | .dstWidth => 0x24
  | .dstHeight => 0x28
  | .reserved2C => 0x2C
  | .arg0 => 0x30
  | .arg1 => 0x34
  | .arg2 => 0x38
  | .arg3 => 0x3C

/-- The slot at a byte offset, or the refusal of R213. -/
def slotAt (off : Nat) : Except Refusal Slot :=
  if off % 4 ≠ 0 then .error .misalignedOffset
  else match off / 4 with
    | 0 => .ok .cmd
    | 1 => .ok .status
    | 2 => .ok .result
    | 3 => .ok .reserved0C
    | 4 => .ok .srcBase
    | 5 => .ok .srcWidth
    | 6 => .ok .srcHeight
    | 7 => .ok .reserved1C
    | 8 => .ok .dstBase
    | 9 => .ok .dstWidth
    | 10 => .ok .dstHeight
    | 11 => .ok .reserved2C
    | 12 => .ok .arg0
    | 13 => .ok .arg1
    | 14 => .ok .arg2
    | 15 => .ok .arg3
    | _ => .error .offsetBeyondSlots

/-- What RegRead returns (R61): CMD and the reserved slots read 0x00000000. -/
def readSlot (s : State) : Slot → Word
  | .cmd => 0x00000000#32
  | .status => s.status
  | .result => s.result
  | .reserved0C => 0x00000000#32
  | .srcBase => s.srcBase
  | .srcWidth => s.srcWidth
  | .srcHeight => s.srcHeight
  | .reserved1C => 0x00000000#32
  | .dstBase => s.dstBase
  | .dstWidth => s.dstWidth
  | .dstHeight => s.dstHeight
  | .reserved2C => 0x00000000#32
  | .arg0 => s.arg0
  | .arg1 => s.arg1
  | .arg2 => s.arg2
  | .arg3 => s.arg3

/-- Command issue (R97): discarded in the error state (R204); an illegal word raises ILLEGAL_CMD with its own low byte in EOPC
(R201); a command runs its rule. -/
def issueCommand (w : Word) (s : State) : Host.Outcome State Fault Refusal :=
  if errFlag s.status then .next s
  else match decode w with
    | .error _ => .next (raiseError .illegalCmd w s)
    | .ok i => exec i s

/-- A host write to a slot (R61): CMD issues a command (R31), STATUS is cleared or left (R32), RESULT and the reserved slots ignore
it (R35, R36), the others store all 32 bits. -/
def writeSlot (v : Word) (s : State) : Slot → Host.Outcome State Fault Refusal
  | .cmd => issueCommand v s
  | .status => .next (s.setStatus (statusAfterWrite s.status v))
  | .result => .next s
  | .reserved0C => .next s
  | .srcBase => .next { s with srcBase := v }
  | .srcWidth => .next { s with srcWidth := v }
  | .srcHeight => .next { s with srcHeight := v }
  | .reserved1C => .next s
  | .dstBase => .next { s with dstBase := v }
  | .dstWidth => .next { s with dstWidth := v }
  | .dstHeight => .next { s with dstHeight := v }
  | .reserved2C => .next s
  | .arg0 => .next { s with arg0 := v }
  | .arg1 => .next { s with arg1 := v }
  | .arg2 => .next { s with arg2 := v }
  | .arg3 => .next { s with arg3 := v }

/-- The value a read returns, appended to the values of the run (R247). -/
def State.pushRead (s : State) (v : Word) : State := { s with reads := s.reads ++ [v] }

/-- RegWrite(off, v) (R61). -/
def regWrite (off : Nat) (v : Word) (s : State) : Host.Outcome State Fault Refusal :=
  match slotAt off with
  | .error r => .refused r
  | .ok slot => writeSlot v s slot

/-- RegRead(off) (R61): no side effect but the value returned. -/
def regRead (off : Nat) (s : State) : Host.Outcome State Fault Refusal :=
  match slotAt off with
  | .error r => .refused r
  | .ok slot => .next (s.pushRead (readSlot s slot))

/-- HostMemWrite(a, v) (R62). -/
def hostMemWrite (a : Nat) (v : Word) (s : State) : Host.Outcome State Fault Refusal :=
  if a ≥ s.cfg.pmemWords then .refused .addressBeyondPmem
  else .next (s.setPmem (s.pmem.write a v))

/-- HostMemRead(a) (R62): an Unwritten word is the model fault UNWRITTEN_READ (R212). -/
def hostMemRead (a : Nat) (s : State) : Host.Outcome State Fault Refusal :=
  if a ≥ s.cfg.pmemWords then .refused .addressBeyondPmem
  else match s.pmem.read a with
    | none => .fault .unwrittenRead
    | some v => .next (s.pushRead v)

/-- The registers at their reset values (R42). PMEM, the parameters, the model fault record and the host's side stay (R240, R212). -/
def State.resetRegisters (s : State) : State :=
  { s with
    status := 0x00000000#32, result := 0x00000000#32,
    srcBase := 0x00000000#32, srcWidth := 0x00000000#32, srcHeight := 0x00000000#32,
    dstBase := 0x00000000#32, dstWidth := 0x00000000#32, dstHeight := 0x00000000#32,
    arg0 := 0x00000000#32, arg1 := 0x00000000#32, arg2 := 0x00000000#32, arg3 := 0x00000000#32 }

/-- A power-on reset: besides, every PMEM word is Unwritten (R42, R240). -/
def State.powerOn (s : State) : State := s.resetRegisters.setPmem []

/-- The effect of one host action (R61, R62, R240). -/
def takeAction (a : HostAction) (s : State) : Host.Outcome State Fault Refusal :=
  match a with
  | .regWrite off v => regWrite off v s
  | .regRead off => regRead off s
  | .memWrite a v => hostMemWrite a v s
  | .memRead a => hostMemRead a s
  | .otherWidth _ => .refused .otherWidth
  | .reset => .next s.resetRegisters
  | .powerOn => .next s.powerOn

/-- The host's list after its next action has been taken off it: the position goes up by 1 (R37, R246). -/
def State.popAction (s : State) (rest : List HostAction) : State := { s with pending := rest, position := s.position + 1 }

/-- One step: a recorded model fault is final (R212); with no action left the block is idle and its state stays (R217, R241, log
entry 6); otherwise the next action is taken (R246). -/
def hostStep (s : State) : Host.Outcome State Fault Refusal :=
  match s.fault with
  | some f => .fault f
  | none =>
    match s.pending with
    | [] => .next s
    | a :: rest => takeAction a (s.popAction rest)

/-- A model fault written into the record of R41. -/
def State.setFault (s : State) (f : Fault) : State := { s with fault := some f }

/-- The record of an outcome in the state it came from (R212): a fault is recorded in place of the action's effect, so the state is
the one before the action, faulted for good; after a refusal the host has no step and the state stands (R213). -/
def recordOutcome (s : State) : Host.Outcome State Fault Refusal → State
  | .next t => t
  | .fault f => s.setFault f
  | .refused _ => s

/-- A host program loaded from outside the machine (R246, log entry 2): its actions stand ready, the position is 0 and nothing has been
read. -/
def State.load (s : State) (program : List HostAction) : State :=
  { s with pending := program, position := 0, reads := [] }

/-- The state with a write of the command word `w` to CMD as the host's next action (R31). Nothing else changes. -/
def State.withCommand (s : State) (w : Word) : State :=
  { s with pending := .regWrite Slot.cmd.offset w :: s.pending }

/-- Whether a command is a transform, one that has a DST region (R63, R200). -/
def isTransform : Instr → Bool
  | .makePixel => false
  | .getRed => false
  | .getGreen => false
  | .getBlue => false
  | .getAlpha => false
  | .index => false
  | .squash => true
  | .colorRotate => true
  | .blur => true
  | .expand => true

/-- What R240 asks of a platform that asserts reset while command `i` is running: the registers at their reset values and every word of the
command's DST region Unwritten. No step takes it: in the model a reset is "never inside a command" (R240, log entry 9). -/
def State.resetInsideCommand (i : Instr) (s : State) : State :=
  if isTransform i then
    s.resetRegisters.setPmem (s.pmem.eraseRange (dstRaster s).base (dstRaster s).endAddr.toNat)
  else s.resetRegisters

end Sys2Proof.Machine
end

