-- ==== Sys2Proof/Machine/Step.lean ====
section
/-!
DEFINITION. One step of the machine, and where the host puts a command word for the next step. What a step does is in
Machine/HostPort.lean.
-/

namespace Sys2Proof.Machine

/-- One step (R245, R246): one host action, a write to CMD with the whole of its command (R70). -/
def step (s : State) : Host.Outcome State Fault Refusal := hostStep s

/-- The state after a step, with the step's fault in the fault record (R212). -/
def stateAfter (s : State) : State := recordOutcome s (step s)

/-- `s` with a write of the table row's word to CMD as the host's next action: the block fetches no instruction from memory (R31, R73),
so this is the load of the command (log entry 2). -/
def State.withFetchWord (s : State) (nbits w : Nat) : State := s.withCommand (tableWord nbits w)

end Sys2Proof.Machine
end

