-- ==== Sys2Proof/Machine/Assembly.lean ====
section
/-!
DEFINITION. The host's notation: one line of text to its host actions (R98), with the pseudo-instructions and their expansions (R99).
The text forms that R98 leaves open are in log entry 16.
-/

namespace Sys2Proof.Machine

/-- One line of a host program: the four actions of R98 and the six pseudo-instructions of R99. DESIGN CHOICE (log entry 16): a reset has no line,
though R246 lets a program hold one, since R98 gives it no syntax. `State.load` takes a list that holds resets. -/
inductive AsmLine where
  | wreg (slot : Slot) (v : Word)
  | rreg (slot : Slot)
  | wmem (a : Nat) (v : Word)
  | rmem (a : Nat)
  | cmd (i : Instr)
  | setsrc (b w h : Word)
  | setdst (b w h : Word)
  | setargs (vs : List Word)
  | clrerr
  | wmemv (a : Nat) (vs : List Word)
deriving DecidableEq, Repr

/-- `wreg NAME, v` (R98): RegWrite(off(NAME), v). -/
def writeTo (slot : Slot) (v : Word) : HostAction := .regWrite slot.offset v

/-- `wmem a, v0` ; `wmem a+1, v1` ; … (R99). -/
def writeWords : Nat → List Word → List HostAction
  | _, [] => []
  | a, v :: vs => .memWrite a v :: writeWords (a + 1) vs

/-- The host actions of a line (R98, R99). `setargs` writes ARG0 upwards, one register for each value given. -/
def AsmLine.expand : AsmLine → List HostAction
  | .wreg slot v => [writeTo slot v]
  | .rreg slot => [.regRead slot.offset]
  | .wmem a v => [.memWrite a v]
  | .rmem a => [.memRead a]
  | .cmd i => [writeTo .cmd (encode i)]
  | .setsrc b w h => [writeTo .srcBase b, writeTo .srcWidth w, writeTo .srcHeight h]
  | .setdst b w h => [writeTo .dstBase b, writeTo .dstWidth w, writeTo .dstHeight h]
  | .setargs vs => List.zipWith writeTo [.arg0, .arg1, .arg2, .arg3] vs
  | .clrerr => [writeTo .status 0x00000001#32]
  | .wmemv a vs => writeWords a vs

/-! ## Reading a line of text -/

/-- The register names of R30. The reserved slots have none. -/
def slotName : List (String × Slot) :=
  [("CMD", .cmd), ("STATUS", .status), ("RESULT", .result),
   ("SRC_BASE", .srcBase), ("SRC_WIDTH", .srcWidth), ("SRC_HEIGHT", .srcHeight),
   ("DST_BASE", .dstBase), ("DST_WIDTH", .dstWidth), ("DST_HEIGHT", .dstHeight),
   ("ARG0", .arg0), ("ARG1", .arg1), ("ARG2", .arg2), ("ARG3", .arg3)]

/-- The command mnemonics of R94. -/
def instrName : List (String × Instr) :=
  [("MAKE_PIXEL", .makePixel), ("GET_RED", .getRed), ("GET_GREEN", .getGreen), ("GET_BLUE", .getBlue),
   ("GET_ALPHA", .getAlpha), ("INDEX", .index), ("SQUASH", .squash), ("COLOR_ROTATE", .colorRotate),
   ("BLUR", .blur), ("EXPAND", .expand)]

/-- Spaces and tabs. -/
def isBlank (c : Char) : Bool := c == ' ' || c == '\t'

/-- A text without the blanks at its two ends. -/
def trim (l : List Char) : List Char := ((l.dropWhile isBlank).reverse.dropWhile isBlank).reverse

/-- A line without its comment: `;` starts one (R98). -/
def withoutComment (l : List Char) : List Char := l.takeWhile (· != ';')

/-- The pieces of a text between commas. -/
def splitCommas : List Char → List (List Char)
  | [] => [[]]
  | c :: l =>
    if c == ',' then [] :: splitCommas l
    else match splitCommas l with
      | [] => [[c]]
      | piece :: pieces => (c :: piece) :: pieces

/-- The value of one digit in base 10 or 16. -/
def digitValue (base : Nat) (c : Char) : Option Nat :=
  let n := c.toLower.toNat
  let d := if 0x30 ≤ n ∧ n ≤ 0x39 then n - 0x30 else if 0x61 ≤ n ∧ n ≤ 0x66 then n - 0x61 + 10 else base
  if d < base then some d else none

/-- Digits after the number `acc` read so far. -/
def digits (base : Nat) : Nat → List Char → Option Nat
  | acc, [] => some acc
  | acc, c :: l =>
    match digitValue base c with
    | some d => digits base (acc * base + d) l
    | none => none

/-- A number: decimal, or hex with a 0x prefix (R98). -/
def natural : List Char → Option Nat
  | [] => none
  | '0' :: 'x' :: c :: l => digits 16 0 (c :: l)
  | c :: l => digits 10 0 (c :: l)

/-- A 32-bit value given as an unsigned number. -/
def unsignedWord (l : List Char) : Option Word :=
  match natural l with
  | some n => if n < 2 ^ 32 then some (BitVec.ofNat 32 n) else none
  | none => none

/-- A value of `wreg` or `setargs`: a negative number stands for its 32-bit two's-complement value (R99). -/
def signedWord : List Char → Option Word
  | '-' :: l =>
    match natural l with
    | some n => if n ≤ 2 ^ 31 then some (BitVec.ofInt 32 (-(n : Int))) else none
    | none => none
  | l => unsignedWord l

/-- All of a list of operands by one reader, or none. -/
def readAll (f : List Char → Option α) : List (List Char) → Option (List α)
  | [] => some []
  | x :: xs =>
    match f x, readAll f xs with
    | some y, some ys => some (y :: ys)
    | _, _ => none

/-- The register of a name. -/
def slotOf (l : List Char) : Option Slot := (slotName.find? fun p => p.1.toList == l).map (·.2)

/-- The command of a mnemonic; mnemonics are case-insensitive (R98). -/
def instrOf (l : List Char) : Option Instr := (instrName.find? fun p => p.1.toList == l.map Char.toUpper).map (·.2)

/-- A line from its mnemonic, in small letters, and its operands (R98, R99). -/
def lineOf (mnemonic : List Char) (ops : List (List Char)) : Option AsmLine :=
  if mnemonic = "wreg".toList then
    match ops with
    | [n, v] => (slotOf n).bind fun s => (signedWord v).map (.wreg s)
    | _ => none
  else if mnemonic = "rreg".toList then
    match ops with
    | [n] => (slotOf n).map .rreg
    | _ => none
  else if mnemonic = "wmem".toList then
    match ops with
    | [a, v] => (natural a).bind fun a => (unsignedWord v).map (.wmem a)
    | _ => none
  else if mnemonic = "rmem".toList then
    match ops with
    | [a] => (natural a).map .rmem
    | _ => none
  else if mnemonic = "cmd".toList then
    match ops with
    | [m] => (instrOf m).map .cmd
    | _ => none
  else if mnemonic = "setsrc".toList then
    match readAll unsignedWord ops with
    | some [b, w, h] => some (.setsrc b w h)
    | _ => none
  else if mnemonic = "setdst".toList then
    match readAll unsignedWord ops with
    | some [b, w, h] => some (.setdst b w h)
    | _ => none
  else if mnemonic = "setargs".toList then
    match readAll signedWord ops with
    | some vs => if 1 ≤ vs.length ∧ vs.length ≤ 4 then some (.setargs vs) else none
    | none => none
  else if mnemonic = "clrerr".toList then
    match ops with
    | [] => some .clrerr
    | _ => none
  else if mnemonic = "wmemv".toList then
    match ops with
    | a :: v :: vs => (natural a).bind fun a => (readAll unsignedWord (v :: vs)).map (.wmemv a)
    | _ => none
  else none

/-- The host actions of one line of text; a line with nothing but blanks and a comment has none. -/
def assembleLine (line : String) : Option (List HostAction) :=
  let text := trim (withoutComment line.toList)
  let mnemonic := text.takeWhile fun c => !isBlank c
  let rest := trim (text.dropWhile fun c => !isBlank c)
  if mnemonic = [] then some []
  else (lineOf (mnemonic.map Char.toLower) (if rest = [] then [] else (splitCommas rest).map trim)).map AsmLine.expand

/-- The action list of a program, one line after the other (R98, R246). -/
def assemble : List String → Option (List HostAction)
  | [] => some []
  | line :: lines =>
    match assembleLine line, assemble lines with
    | some actions, some more => some (actions ++ more)
    | _, _ => none

end Sys2Proof.Machine
end

