-- ==== Sys2Proof/Safety.lean ====
section
/-!
DEFINITION. What counts as a safe run, and the words claims are stated in: the invariant of the machine, how a run ends (R247), the
regions and pixels of the two rasters (R141) and the table of error causes (R200), read off the registers directly.
-/

namespace Sys2Proof.Machine

/-! ## The invariant -/

/-- What every reachable state satisfies: PMEM is in canonical form and holds no word outside the address space (R60), and STATUS holds
one of its legal values (R32). -/
def StateInv (s : State) : Prop :=
  s.pmem.wf = true ∧ s.pmem.inside s.cfg.pmemWords = true ∧ statusLegal s.status = true

/-- The host's next action is `a`, with `rest` after it, and no model fault is recorded. -/
def Awaits (s : State) (a : HostAction) (rest : List HostAction) : Prop := s.fault = none ∧ s.pending = a :: rest

/-! ## The end of a run -/

/-- The three ends of a run (R247). -/
inductive RunEnd where
  /-- every action has been taken; the end state holds the values read -/
  | completed (s : State)
  /-- a model fault happened -/
  | faulted (f : Fault)
  /-- an access was refused -/
  | stuck (r : Refusal)
deriving DecidableEq, Repr

/-- The end of a run of at most `n` host actions (R246, R247). DESIGN CHOICE (log entry 23): the spec does not say whether a launch state may
hold a recorded fault. The model allows it, and such a run is faulted, also when it has no action. -/
def runFor : Nat → State → RunEnd
  | 0, s =>
    match s.fault with
    | some f => .faulted f
    | none => .completed s
  | n + 1, s =>
    match step s with
    | .next t => runFor n t
    | .fault f => .faulted f
    | .refused r => .stuck r

/-- The run of all the host actions that stand in the state (R246): no step adds or skips one, so their number is the number of steps. -/
def runAll (s : State) : RunEnd := runFor s.pending.length s

/-! ## Rasters, from the registers -/

/-- SRC passes its check (R142): positive sint dimensions, and a region inside PMEM. -/
def SrcFits (s : State) : Prop :=
  1 ≤ s.srcWidth.toInt ∧ 1 ≤ s.srcHeight.toInt ∧
    (s.srcBase.toNat : Int) + s.srcWidth.toInt * s.srcHeight.toInt ≤ s.cfg.pmemWords

/-- DST passes its check (R142). -/
def DstFits (s : State) : Prop :=
  1 ≤ s.dstWidth.toInt ∧ 1 ≤ s.dstHeight.toInt ∧
    (s.dstBase.toNat : Int) + s.dstWidth.toInt * s.dstHeight.toInt ≤ s.cfg.pmemWords

/-- Word address `a` is in the SRC region (R141). -/
def InSrc (s : State) (a : Nat) : Prop :=
  s.srcBase.toNat ≤ a ∧ (a : Int) < s.srcBase.toNat + s.srcWidth.toInt * s.srcHeight.toInt

/-- Word address `a` is in the DST region (R141). -/
def InDst (s : State) (a : Nat) : Prop :=
  s.dstBase.toNat ≤ a ∧ (a : Int) < s.dstBase.toNat + s.dstWidth.toInt * s.dstHeight.toInt

/-- The two regions share no address (R144). -/
def RegionsDisjoint (s : State) : Prop := ∀ a, ¬(InSrc s a ∧ InDst s a)

/-- The checks every transform begins with all pass (R142, R144). -/
def TransformReady (s : State) : Prop := SrcFits s ∧ DstFits s ∧ RegionsDisjoint s

/-- Every word of the SRC region is Written (R242, step 1). -/
def SrcWritten (s : State) : Prop := ∀ a, InSrc s a → ∃ v, s.pmem.read a = some v

/-- The address of source pixel (row, col) (R141). -/
def srcAddr (s : State) (row col : Nat) : Nat := s.srcBase.toNat + (row * s.srcWidth.toNat + col)

/-- The address of destination pixel (row, col) (R141). -/
def dstAddr (s : State) (row col : Nat) : Nat := s.dstBase.toNat + (row * s.dstWidth.toNat + col)

/-- The value of source pixel (row, col), 0 where it is Unwritten: claims use it of Written pixels only. -/
def srcPixel (s : State) (row col : Nat) : Word := (s.pmem.read (srcAddr s row col)).getD 0#32

/-- The truncated mean of one channel over a set of source pixels (R123), an exact sum over an exact count. -/
def laneMean (s : State) (ch : Word → Nat) (w : Finset (Nat × Nat)) : Nat :=
  (∑ p ∈ w, ch (srcPixel s p.1 p.2)) / w.card

/-- BLUR's window (R180), from the source's own words: the pixels inside the bounds whose row and column are within `d` of the centre. -/
def blurWindow (s : State) (d : Int) (row col : Nat) : Finset (Nat × Nat) :=
  (Finset.range s.srcHeight.toNat ×ˢ Finset.range s.srcWidth.toNat).filter fun p =>
    |(p.1 : Int) - row| ≤ d ∧ |(p.2 : Int) - col| ≤ d

/-- EXPAND's candidates (R190), from the parity table: row i/2, and the next row too where i is odd; likewise for columns; only pixels
inside the bounds. -/
def expandWindow (s : State) (i j : Nat) : Finset (Nat × Nat) :=
  (Finset.range s.srcHeight.toNat ×ˢ Finset.range s.srcWidth.toNat).filter fun p =>
    (p.1 = i / 2 ∨ i % 2 = 1 ∧ p.1 = i / 2 + 1) ∧ (p.2 = j / 2 ∨ j % 2 = 1 ∧ p.2 = j / 2 + 1)

/-! ## The causes of errors -/

/-- The commands that use the SRC descriptor: INDEX and the transforms (R200). -/
def usesSrc : Instr → Bool
  | .makePixel => false
  | .getRed => false
  | .getGreen => false
  | .getBlue => false
  | .getAlpha => false
  | .index => true
  | .squash => true
  | .colorRotate => true
  | .blur => true
  | .expand => true

/-- The table of R200: the cause of each error for each command, read off the registers. ILLEGAL_CMD has no cause here: a command is a
legal word. -/
def Violates (i : Instr) (s : State) : ErrCode → Prop
  | .illegalCmd => False
  | .badDimSrc => usesSrc i = true ∧ (s.srcWidth.toInt < 1 ∨ s.srcHeight.toInt < 1)
  | .rangeSrc => usesSrc i = true ∧
      (s.srcBase.toNat : Int) + s.srcWidth.toInt * s.srcHeight.toInt > s.cfg.pmemWords
  | .badDimDst => isTransform i = true ∧ (s.dstWidth.toInt < 1 ∨ s.dstHeight.toInt < 1)
  | .rangeDst => isTransform i = true ∧
      (s.dstBase.toNat : Int) + s.dstWidth.toInt * s.dstHeight.toInt > s.cfg.pmemWords
  | .aliasRegions => isTransform i = true ∧ ∃ a, InSrc s a ∧ InDst s a
  | .dimMismatch =>
      ((i = .colorRotate ∨ i = .blur) ∧
        (s.dstWidth.toInt ≠ s.srcWidth.toInt ∨ s.dstHeight.toInt ≠ s.srcHeight.toInt)) ∨
      (i = .expand ∧ (s.dstWidth.toInt ≠ 2 * s.srcWidth.toInt ∨ s.dstHeight.toInt ≠ 2 * s.srcHeight.toInt))
  | .badParam =>
      (i = .squash ∧ (s.arg0.toInt < 1 ∨ s.arg1.toInt < 1)) ∨ (i = .blur ∧ s.arg0.toInt < 0)
  | .oobIndex => i = .index ∧
      (s.arg0.toInt < 0 ∨ s.arg0.toInt ≥ s.srcHeight.toInt ∨ s.arg1.toInt < 0 ∨ s.arg1.toInt ≥ s.srcWidth.toInt)

/-- `e` is the error a command reports: its cause holds, and no error of a smaller code has its cause (R202). -/
def FirstViolation (i : Instr) (s : State) (e : ErrCode) : Prop :=
  Violates i s e ∧ ∀ e', e'.ecode < e.ecode → ¬Violates i s e'

/-- The STATUS value of error code number `code` with opcode byte `opc`, as a number (R32, R203). -/
def statusValue (code opc : Nat) : Word := BitVec.ofNat 32 (opc * 256 + code * 16 + 1)

end Sys2Proof.Machine
end

