-- ==== Sys2Proof/Certificates/Slice0/Obligations.lean ====
section
/-!
DEFINITION. What is claimed of the machine, rule by rule of the spec. Each claim is about every state, reached or not, unless it says
otherwise.
-/

open Sys2Proof Sys2Proof.Machine

/-! ## Encoding -/

/-- R94, R96: a word is command `i` exactly when RSV is 0 and OPC is the opcode of `i`; every other word is illegal. -/
def Obligations.DecodeIsTheOpcodeMap : Prop :=
  ∀ (w : Word) (i : Instr), decode w = .ok i ↔
    w.extractLsb 31 8 = 0#24 ∧
      (w.extractLsb 7 0).toNat =
        match i with
        | .makePixel => 0x01
        | .getRed => 0x02
        | .getGreen => 0x03
        | .getBlue => 0x04
        | .getAlpha => 0x05
        | .index => 0x06
        | .squash => 0x07
        | .colorRotate => 0x08
        | .blur => 0x09
        | .expand => 0x0A

/-- R95: the illegal words, and the only effect one has when it is written to CMD: ILLEGAL_CMD with its own low byte as EOPC. -/
def Obligations.IllegalWordsRaiseIllegalCmd : Prop :=
  ∀ (w : Word),
    ((∃ r, decode w = .error r) ↔
      (w.extractLsb 7 0).toNat = 0x00 ∨ 0x0B ≤ (w.extractLsb 7 0).toNat ∨ w.extractLsb 31 8 ≠ 0#24) ∧
    ∀ (s : State) (rest : List HostAction), Awaits s (.regWrite 0x00 w) rest → s.status.getLsbD 0 = false →
      (w.extractLsb 7 0).toNat = 0x00 ∨ 0x0B ≤ (w.extractLsb 7 0).toNat ∨ w.extractLsb 31 8 ≠ 0#24 →
      step s = .next { s with pending := rest, position := s.position + 1, status := statusValue 1 (w.toNat % 256) }

/-- R94, both ways: the decoder reads from the word of a command that command, and a word that decodes is the word of what it decodes
to, so no bit of a command word is dropped. -/
def Obligations.EncodeAndDecodeAreInverse : Prop :=
  ∀ (i : Instr) (w : Word), decode w = .ok i ↔ encode i = w

/-- The ten command words of the table of R94, written out. A sanity check of the decoder. -/
def Obligations.TableWordsDecode : Prop :=
  decodeTableWord 32 0x00000001 = some .makePixel ∧ decodeTableWord 32 0x00000002 = some .getRed ∧
  decodeTableWord 32 0x00000003 = some .getGreen ∧ decodeTableWord 32 0x00000004 = some .getBlue ∧
  decodeTableWord 32 0x00000005 = some .getAlpha ∧ decodeTableWord 32 0x00000006 = some .index ∧
  decodeTableWord 32 0x00000007 = some .squash ∧ decodeTableWord 32 0x00000008 = some .colorRotate ∧
  decodeTableWord 32 0x00000009 = some .blur ∧ decodeTableWord 32 0x0000000A = some .expand ∧
  decodeTableWord 32 0x00000000 = none ∧ decodeTableWord 32 0x0000000B = none ∧ decodeTableWord 32 0x00000101 = none

/-! ## Command issue -/

/-- R97: what a write to CMD is, on the state with the action taken. In the error state it is discarded; otherwise a legal word is the rule
of its command, and any other word raises ILLEGAL_CMD with its own low byte as EOPC. -/
def Obligations.StepRunsDecodedCommand : Prop :=
  ∀ (s : State) (w : Word) (rest : List HostAction), Awaits s (.regWrite 0x00 w) rest →
    (s.status.getLsbD 0 = true → step s = .next { s with pending := rest, position := s.position + 1 }) ∧
    (s.status.getLsbD 0 = false →
      (∀ i, decode w = .ok i → step s = exec i { s with pending := rest, position := s.position + 1 }) ∧
      ∀ r, decode w = .error r →
        step s = .next { s with pending := rest, position := s.position + 1, status := statusValue 1 (w.toNat % 256) })

/-- The load of a command for the next step (the model's choice, log entry 2): outside the error state the next step runs exactly it. -/
def Obligations.WithFetchWordRunsTheCommand : Prop :=
  ∀ (s : State) (i : Instr), s.fault = none → s.status.getLsbD 0 = false →
    step (s.withFetchWord 32 (encode i).toNat) = exec i { s with position := s.position + 1 }

/-- R204: while ERR = 1 a write to CMD is discarded, whatever the word: nothing changes but the host's position. The other accesses work as
usual: STATUS is read and cleared, and an access of any other register or of PMEM does what it does with any other STATUS. -/
def Obligations.CommandsAreDiscardedInErrorState : Prop :=
  (∀ (s : State) (w : Word) (rest : List HostAction), Awaits s (.regWrite 0x00 w) rest → s.status.getLsbD 0 = true →
    step s = .next { s with pending := rest, position := s.position + 1 }) ∧
  (∀ (s : State) (rest : List HostAction), Awaits s (.regRead 0x04) rest →
    step s = .next { s with pending := rest, position := s.position + 1, reads := s.reads ++ [s.status] }) ∧
  (∀ (s : State) (v : Word) (rest : List HostAction), Awaits s (.regWrite 0x04 v) rest →
    step s = .next { s with pending := rest, position := s.position + 1,
                            status := if v.toNat % 2 = 1 then 0x00000000#32 else s.status }) ∧
  ∀ (s : State) (v : Word) (a : HostAction) (rest : List HostAction), Awaits s a rest →
    (match a with
      | .regWrite off _ => off ≠ 0x00 ∧ off ≠ 0x04
      | .regRead off => off ≠ 0x04
      | .memWrite _ _ => True
      | .memRead _ => True
      | .otherWidth _ => False
      | .reset => False
      | .powerOn => False) →
    step { s with status := v } =
      match step s with
      | .next t => .next { t with status := v }
      | .fault f => .fault f
      | .refused r => .refused r

/-! ## The codec commands -/

/-- R124: MAKE_PIXEL packs the low bytes of ARG0 to ARG3 into RESULT, red highest, and changes nothing else, in every state. Its opcode
with RSV ≠ 0 is no MAKE_PIXEL: it raises ILLEGAL_CMD. -/
def Obligations.MakePixelPacksLowBytes : Prop :=
  decode 0x00000001#32 = .ok .makePixel ∧
  (∀ s : State, exec .makePixel s = .next
    { s with
      result := BitVec.ofNat 32 (s.arg0.toNat % 256 * 2 ^ 24 + s.arg1.toNat % 256 * 2 ^ 16 +
        s.arg2.toNat % 256 * 2 ^ 8 + s.arg3.toNat % 256) }) ∧
  ∀ (s : State) (w : Word), s.status.getLsbD 0 = false → (w.extractLsb 7 0).toNat = 0x01 → w.extractLsb 31 8 ≠ 0#24 →
    issueCommand w s = .next { s with status := statusValue 1 0x01 }

/-- R125 to R128: each GET command writes its channel of ARG0, zero-extended, to RESULT and changes nothing else, in every state. -/
def Obligations.GetCommandsExtractChannels : Prop :=
  decode 0x00000002#32 = .ok .getRed ∧ decode 0x00000003#32 = .ok .getGreen ∧ decode 0x00000004#32 = .ok .getBlue ∧
  decode 0x00000005#32 = .ok .getAlpha ∧
  ∀ s : State,
    exec .getRed s = .next { s with result := BitVec.ofNat 32 (s.arg0.toNat / 2 ^ 24) } ∧
    exec .getGreen s = .next { s with result := BitVec.ofNat 32 (s.arg0.toNat / 2 ^ 16 % 256) } ∧
    exec .getBlue s = .next { s with result := BitVec.ofNat 32 (s.arg0.toNat / 2 ^ 8 % 256) } ∧
    exec .getAlpha s = .next { s with result := BitVec.ofNat 32 (s.arg0.toNat % 256) }

/-- R122: pack and unpack undo each other, and pack is a bijection from four bytes onto the words. -/
def Obligations.PackAndUnpackAreInverse : Prop :=
  (∀ p : Word, pack (chR p) (chG p) (chB p) (chA p) = p) ∧
  (∀ r g b a : Nat, chR (pack r g b a) = r % 256 ∧ chG (pack r g b a) = g % 256 ∧ chB (pack r g b a) = b % 256 ∧
    chA (pack r g b a) = a % 256) ∧
  Function.Bijective fun q : Fin 256 × Fin 256 × Fin 256 × Fin 256 => pack q.1 q.2.1 q.2.2.1 q.2.2.2

/-- The averaging helper (R123): each lane is the exact sum divided by the count, truncating, below 256 so that pack never masks; the
order of the pixels does not matter; the empty list is the model fault AVG_EMPTY. -/
def Obligations.AverageIsTheTruncatedLaneMean : Prop :=
  (∀ l : List Word, l ≠ [] → ∃ q, avg l = .ok q ∧
    ∀ ch ∈ [chR, chG, chB, chA], (l.map ch).sum / l.length < 256 ∧ ch q = (l.map ch).sum / l.length) ∧
  (∀ l l' : List Word, l.Perm l' → avg l = avg l') ∧
  avg [] = .error .avgEmpty

/-! ## INDEX -/

/-- R145: INDEX answers row*width + col of a cell of SRC, a number below PMEM_WORDS, in RESULT alone; otherwise it reports BAD_DIM_SRC,
RANGE_SRC or OOB_INDEX, in this order, in STATUS alone. -/
def Obligations.IndexAnswersLinearIndex : Prop :=
  decode 0x00000006#32 = .ok .index ∧
  ∀ s : State,
    (SrcFits s → 0 ≤ s.arg0.toInt → s.arg0.toInt < s.srcHeight.toInt → 0 ≤ s.arg1.toInt → s.arg1.toInt < s.srcWidth.toInt →
      exec .index s = .next { s with result := BitVec.ofNat 32 (s.arg0.toNat * s.srcWidth.toNat + s.arg1.toNat) } ∧
      s.arg0.toNat * s.srcWidth.toNat + s.arg1.toNat < s.cfg.pmemWords) ∧
    (s.srcWidth.toInt < 1 ∨ s.srcHeight.toInt < 1 → exec .index s = .next { s with status := statusValue 2 0x06 }) ∧
    (1 ≤ s.srcWidth.toInt → 1 ≤ s.srcHeight.toInt →
      (s.srcBase.toNat : Int) + s.srcWidth.toInt * s.srcHeight.toInt > s.cfg.pmemWords →
      exec .index s = .next { s with status := statusValue 3 0x06 }) ∧
    (SrcFits s →
      s.arg0.toInt < 0 ∨ s.arg0.toInt ≥ s.srcHeight.toInt ∨ s.arg1.toInt < 0 ∨ s.arg1.toInt ≥ s.srcWidth.toInt →
      exec .index s = .next { s with status := statusValue 9 0x06 })

/-- R147: row-major indexing is a bijection from the cells onto [0, w*h), the next column is the next index, and the row stride is w. -/
def Obligations.LinearIndexIsABijection : Prop :=
  ∀ w h : Nat,
    Set.BijOn (fun p : Nat × Nat => lin w p.1 p.2) {p | p.1 < h ∧ p.2 < w} {k | k < w * h} ∧
    (∀ row col, col + 1 < w → lin w row (col + 1) = lin w row col + 1) ∧
    (∀ row col, lin w (row + 1) col = lin w row col + w)

/-! ## SQUASH -/

/-- R160, R161: SQUASH copies the source pixel at (row*yFactor, col*xFactor) to each in-range cell of DST; an out-of-range cell keeps its
value or becomes 0, as SQUASH_OOB_FILL says; nothing else changes. Only the sampled pixels have to be Written. Otherwise it reports the
first error that has its cause. -/
def Obligations.SquashSamplesPoints : Prop :=
  decode 0x00000007#32 = .ok .squash ∧
  (∀ s : State, TransformReady s → 1 ≤ s.arg0.toInt → 1 ≤ s.arg1.toInt →
    (∀ row col, row < s.dstHeight.toNat → col < s.dstWidth.toNat →
      row * s.arg1.toNat < s.srcHeight.toNat → col * s.arg0.toNat < s.srcWidth.toNat →
      ∃ v, s.pmem.read (srcAddr s (row * s.arg1.toNat) (col * s.arg0.toNat)) = some v) →
    ∃ m, exec .squash s = .next { s with pmem := m } ∧
      (∀ row col, row < s.dstHeight.toNat → col < s.dstWidth.toNat →
        m.read (dstAddr s row col) =
          if row * s.arg1.toNat < s.srcHeight.toNat ∧ col * s.arg0.toNat < s.srcWidth.toNat then
            s.pmem.read (srcAddr s (row * s.arg1.toNat) (col * s.arg0.toNat))
          else match s.cfg.squashOobFill with
            | .keep => s.pmem.read (dstAddr s row col)
            | .zero => some 0x00000000#32) ∧
      ∀ a, ¬InDst s a → m.read a = s.pmem.read a) ∧
  ∀ (s : State) (e : ErrCode), FirstViolation .squash s e →
    exec .squash s = .next { s with status := statusValue e.ecode 0x07 }

/-- R162: cell (row, col) is in range exactly when row < ceil(sh / yf) and col < ceil(sw / xf); and if all of DST is in range, what
SQUASH leaves in DST depends neither on SQUASH_OOB_FILL nor on what DST held: each cell is the source pixel. -/
def Obligations.SquashOfTheRightSizeIgnoresFill : Prop :=
  (∀ n f k : Nat, 1 ≤ f → (k * f < n ↔ k < (n + f - 1) / f)) ∧
  ∀ (s s' : State) (fill : OobFill) (m : Memory), s' = { s with cfg := { s.cfg with squashOobFill := fill }, pmem := m } →
    (∀ a, ¬InDst s a → m.read a = s.pmem.read a) →
    TransformReady s → 1 ≤ s.arg0.toInt → 1 ≤ s.arg1.toInt → SrcWritten s →
    s.dstHeight.toNat ≤ (s.srcHeight.toNat + s.arg1.toNat - 1) / s.arg1.toNat →
    s.dstWidth.toNat ≤ (s.srcWidth.toNat + s.arg0.toNat - 1) / s.arg0.toNat →
    ∃ t t', exec .squash s = .next t ∧ exec .squash s' = .next t' ∧
      ∀ row col, row < s.dstHeight.toNat → col < s.dstWidth.toNat →
        t.pmem.read (dstAddr s row col) = s.pmem.read (srcAddr s (row * s.arg1.toNat) (col * s.arg0.toNat)) ∧
        t'.pmem.read (dstAddr s row col) = s.pmem.read (srcAddr s (row * s.arg1.toNat) (col * s.arg0.toNat))

/-! ## COLOR_ROTATE -/

/-- R170, R171: COLOR_ROTATE writes to every cell of DST the source pixel with new red = old blue, new green = old red, new blue = old
green and the same alpha, and changes nothing else; otherwise it reports the first error that has its cause. -/
def Obligations.ColorRotatePermutesChannels : Prop :=
  decode 0x00000008#32 = .ok .colorRotate ∧
  (∀ s : State, TransformReady s → s.dstWidth = s.srcWidth → s.dstHeight = s.srcHeight → SrcWritten s →
    ∃ m, exec .colorRotate s = .next { s with pmem := m } ∧
      (∀ row col, row < s.srcHeight.toNat → col < s.srcWidth.toNat → ∃ q, m.read (dstAddr s row col) = some q ∧
        chR q = chB (srcPixel s row col) ∧ chG q = chR (srcPixel s row col) ∧ chB q = chG (srcPixel s row col) ∧
        chA q = chA (srcPixel s row col)) ∧
      ∀ a, ¬InDst s a → m.read a = s.pmem.read a) ∧
  ∀ (s : State) (e : ErrCode), FirstViolation .colorRotate s e →
    exec .colorRotate s = .next { s with status := statusValue e.ecode 0x08 }

/-- The laws of the rotation (R172): order three, its square, its fixed points, and alpha. -/
def Obligations.RotationHasOrderThree : Prop :=
  ∀ p : Word, rot (rot (rot p)) = p ∧
    rot (rot p) = pack (chG p) (chB p) (chR p) (chA p) ∧
    (rot (rot p) = p ↔ chR p = chG p ∧ chG p = chB p) ∧
    (rot p = p ↔ chR p = chG p ∧ chG p = chB p) ∧
    chA (rot p) = chA p

/-- Three COLOR_ROTATE commands through rasters A, B, C and D of one size leave D equal to A, word for word (R172, last sentence). -/
def Obligations.ThreeRotationsRestoreTheRaster : Prop :=
  ∀ (s t₁ t₂ t₃ : State) (c d : Word), s.status.getLsbD 0 = false →
    exec .colorRotate s = .next t₁ → t₁.status = s.status →
    exec .colorRotate { t₁ with srcBase := s.dstBase, dstBase := c } = .next t₂ → t₂.status = s.status →
    exec .colorRotate { t₂ with srcBase := c, dstBase := d } = .next t₃ → t₃.status = s.status →
    ∀ row col, row < s.srcHeight.toNat → col < s.srcWidth.toNat →
      t₃.pmem.read (dstAddr t₃ row col) = s.pmem.read (srcAddr s row col)

/-! ## BLUR -/

/-- R180, R181, R182: BLUR writes to every cell of DST the truncated means of red, green and blue over the pixels in bounds within
blurDist of the cell, and the cell's own alpha, and changes nothing else; otherwise it reports the first error that has its cause. -/
def Obligations.BlurAveragesTheWindow : Prop :=
  decode 0x00000009#32 = .ok .blur ∧
  (∀ s : State, TransformReady s → s.dstWidth = s.srcWidth → s.dstHeight = s.srcHeight → 0 ≤ s.arg0.toInt → SrcWritten s →
    ∃ m, exec .blur s = .next { s with pmem := m } ∧
      (∀ row col, row < s.srcHeight.toNat → col < s.srcWidth.toNat → ∃ q, m.read (dstAddr s row col) = some q ∧
        chR q = laneMean s chR (blurWindow s s.arg0.toInt row col) ∧
        chG q = laneMean s chG (blurWindow s s.arg0.toInt row col) ∧
        chB q = laneMean s chB (blurWindow s s.arg0.toInt row col) ∧
        chA q = chA (srcPixel s row col)) ∧
      ∀ a, ¬InDst s a → m.read a = s.pmem.read a) ∧
  ∀ (s : State) (e : ErrCode), FirstViolation .blur s e →
    exec .blur s = .next { s with status := statusValue e.ecode 0x09 }

/-- The size of BLUR's window (R180, R245): the product of its clamped sides, at least 1, at most the raster and at most (2d+1)². -/
def Obligations.BlurWindowSize : Prop :=
  ∀ sh sw d row col : Nat, row < sh → col < sw →
    (windowCells sh sw d row col).length =
      (min (sh - 1) (row + d) - (row - d) + 1) * (min (sw - 1) (col + d) - (col - d) + 1) ∧
    1 ≤ (windowCells sh sw d row col).length ∧
    (windowCells sh sw d row col).length ≤ sw * sh ∧
    (windowCells sh sw d row col).length ≤ (2 * d + 1) ^ 2

/-- BLUR with distance 0 copies SRC to DST (R183, identity). -/
def Obligations.BlurOfDistanceZeroIsACopy : Prop :=
  ∀ s : State, TransformReady s → s.dstWidth = s.srcWidth → s.dstHeight = s.srcHeight → s.arg0 = 0#32 → SrcWritten s →
    ∃ m, exec .blur s = .next { s with pmem := m } ∧
      ∀ row col, row < s.srcHeight.toNat → col < s.srcWidth.toNat →
        m.read (dstAddr s row col) = s.pmem.read (srcAddr s row col)

/-- BLUR with any two distances of at least max(width, height) - 1 leaves the same PMEM (R183, saturation). -/
def Obligations.BlurSaturates : Prop :=
  ∀ (s : State) (v : Word), TransformReady s → s.dstWidth = s.srcWidth → s.dstHeight = s.srcHeight → SrcWritten s →
    s.pmem.wf = true →
    s.srcWidth.toInt - 1 ≤ s.arg0.toInt → s.srcHeight.toInt - 1 ≤ s.arg0.toInt →
    s.srcWidth.toInt - 1 ≤ v.toInt → s.srcHeight.toInt - 1 ≤ v.toInt →
    ∃ m, exec .blur s = .next { s with pmem := m } ∧ exec .blur { s with arg0 := v } = .next { s with arg0 := v, pmem := m }

/-! ## EXPAND -/

/-- R190, R191: EXPAND writes to every cell (i, j) of DST the truncated mean, in all four lanes, of the source pixels in bounds that the
parity table names, and changes nothing else; otherwise it reports the first error that has its cause. -/
def Obligations.ExpandInterpolates : Prop :=
  decode 0x0000000A#32 = .ok .expand ∧
  (∀ s : State, TransformReady s → s.dstWidth.toInt = 2 * s.srcWidth.toInt → s.dstHeight.toInt = 2 * s.srcHeight.toInt →
    SrcWritten s →
    ∃ m, exec .expand s = .next { s with pmem := m } ∧
      (∀ i j, i < 2 * s.srcHeight.toNat → j < 2 * s.srcWidth.toNat → ∃ q, m.read (dstAddr s i j) = some q ∧
        chR q = laneMean s chR (expandWindow s i j) ∧ chG q = laneMean s chG (expandWindow s i j) ∧
        chB q = laneMean s chB (expandWindow s i j) ∧ chA q = laneMean s chA (expandWindow s i j)) ∧
      ∀ a, ¬InDst s a → m.read a = s.pmem.read a) ∧
  ∀ (s : State) (e : ErrCode), FirstViolation .expand s e →
    exec .expand s = .next { s with status := statusValue e.ecode 0x0A }

/-- Laws of EXPAND (R192): even cells are copies, a raster of one value expands to that value, and a source of one row (or one column)
gives two equal rows (columns). -/
def Obligations.ExpandLaws : Prop :=
  ∀ s : State, TransformReady s → s.dstWidth.toInt = 2 * s.srcWidth.toInt → s.dstHeight.toInt = 2 * s.srcHeight.toInt →
    SrcWritten s →
    ∃ m, exec .expand s = .next { s with pmem := m } ∧
      (∀ row col, row < s.srcHeight.toNat → col < s.srcWidth.toNat →
        m.read (dstAddr s (2 * row) (2 * col)) = s.pmem.read (srcAddr s row col)) ∧
      (∀ v, (∀ a, InSrc s a → s.pmem.read a = some v) → ∀ a, InDst s a → m.read a = some v) ∧
      (s.srcHeight = 1#32 → ∀ j, j < 2 * s.srcWidth.toNat → m.read (dstAddr s 1 j) = m.read (dstAddr s 0 j)) ∧
      (s.srcWidth = 1#32 → ∀ i, i < 2 * s.srcHeight.toNat → m.read (dstAddr s i 1) = m.read (dstAddr s i 0))

/-- SQUASH with both factors 2 undoes EXPAND (95_test_vectors.md, L3-4): back into a raster of the size of the first source, every word
is the first source's. -/
def Obligations.SquashUndoesExpand : Prop :=
  ∀ (s t u : State) (b : Word), s.status.getLsbD 0 = false →
    exec .expand s = .next t → t.status = s.status →
    exec .squash { t with srcBase := s.dstBase, srcWidth := s.dstWidth, srcHeight := s.dstHeight, dstBase := b,
                          dstWidth := s.srcWidth, dstHeight := s.srcHeight, arg0 := 2#32, arg1 := 2#32 } = .next u →
    u.status = s.status →
    ∀ row col, row < s.srcHeight.toNat → col < s.srcWidth.toNat →
      u.pmem.read (dstAddr u row col) = s.pmem.read (srcAddr s row col)

/-! ## Errors -/

/-- R202: an illegal word reports ILLEGAL_CMD; of the errors whose cause in the table of R200 holds, a command reports the one of the
smallest code; either way STATUS alone changes. If no cause holds the command leaves STATUS as it is, or it stops at an Unwritten pixel.
No cause reads PMEM. -/
def Obligations.FirstFailingCheckIsReported : Prop :=
  (∀ (w : Word) (s : State) (r : IllegalWord), s.status.getLsbD 0 = false → decode w = .error r →
    issueCommand w s = .next { s with status := statusValue 1 (w.toNat % 256) }) ∧
  (∀ (i : Instr) (s : State) (e : ErrCode), FirstViolation i s e →
    exec i s = .next { s with status := statusValue e.ecode ((encode i).toNat % 256) }) ∧
  (∀ (i : Instr) (s : State), (∀ e, ¬Violates i s e) →
    (∃ t, exec i s = .next t ∧ t.status = s.status) ∨ exec i s = .fault .unwrittenRead) ∧
  ∀ (i : Instr) (s : State) (m : Memory) (e : ErrCode), Violates i { s with pmem := m } e ↔ Violates i s e

/-- R203: what `raise Error(CODE)` records, field by field, and that it changes nothing else. -/
def Obligations.ErrorEntryRecordsInStatusAlone : Prop :=
  ∀ (e : ErrCode) (w : Word) (s : State),
    raiseError e w s = { s with status := (raiseError e w s).status } ∧
    (raiseError e w s).status = statusValue e.ecode (w.toNat % 256) ∧
    (raiseError e w s).status.getLsbD 0 = true ∧
    ((raiseError e w s).status.extractLsb 7 4).toNat = e.ecode ∧
    (raiseError e w s).status.extractLsb 15 8 = w.extractLsb 7 0 ∧
    (raiseError e w s).status.extractLsb 3 1 = 0#3 ∧ (raiseError e w s).status.extractLsb 31 16 = 0#16

/-- The frame of every command (R33, R35, R38, R63, R203). A command that is no transform writes RESULT alone; a transform writes PMEM alone, and
of PMEM only the words of its DST region; an error is recorded in STATUS alone. -/
def Obligations.ACommandWritesOnePlaceOnly : Prop :=
  ∀ (i : Instr) (s t : State), exec i s = .next t →
    (isTransform i = false ∧ t = { s with result := t.result }) ∨
    (isTransform i = true ∧ t = { s with pmem := t.pmem } ∧ ∀ a, ¬InDst s a → t.pmem.read a = s.pmem.read a) ∨
    (t = { s with status := t.status } ∧ t.status.getLsbD 0 = true)

/-- R206: no error is recorded over another: while ERR = 1 a step leaves STATUS as it is, but for a write of an odd value to STATUS or a
reset, which clear it. -/
def Obligations.TheFirstErrorIsKept : Prop :=
  ∀ s t : State, s.status.getLsbD 0 = true → step s = .next t →
    t.status = s.status ∨
    (t.status = 0x00000000#32 ∧ ((∃ v rest, s.pending = .regWrite 0x04 v :: rest ∧ v.getLsbD 0 = true) ∨
      (∃ rest, s.pending = .reset :: rest) ∨ ∃ rest, s.pending = .powerOn :: rest))

/-- R205: a write with bit 0 = 1 to STATUS clears all of it and restores nothing else; any other value has no effect (R32). -/
def Obligations.StatusIsClearedByWritingBitZero : Prop :=
  ∀ (s : State) (v : Word) (rest : List HostAction), Awaits s (.regWrite 0x04 v) rest →
    step s = .next { s with pending := rest, position := s.position + 1,
                            status := if v.toNat % 2 = 1 then 0x00000000#32 else s.status }

/-- Which command errors does not depend on PMEM contents (R202: "No check depends on PMEM contents"). -/
def Obligations.ErrorsDoNotDependOnPixels : Prop :=
  ∀ (i : Instr) (s : State) (m : Memory) (v : Word), exec i s = .next { s with status := v } → v ≠ s.status →
    exec i { s with pmem := m } = .next { s with pmem := m, status := v }

/-! ## The engine and PMEM -/

/-- R63, R75: a command changes no word of PMEM outside DST, and none at all unless it is a transform whose checks pass; so it never
changes a word of SRC. -/
def Obligations.TheEngineWritesOnlyDst : Prop :=
  ∀ (i : Instr) (s t : State), exec i s = .next t →
    (∀ a, ¬(isTransform i = true ∧ TransformReady s ∧ InDst s a) → t.pmem.read a = s.pmem.read a) ∧
    ∀ a, InSrc s a → t.pmem.read a = s.pmem.read a

/-- The loop of a transform visits every word of the DST region exactly once (R75). -/
def Obligations.EachDstWordIsVisitedOnce : Prop :=
  ∀ s : State, DstFits s →
    ((cells s.dstHeight.toNat s.dstWidth.toNat).map fun p => dstAddr s p.1 p.2).Nodup ∧
    ∀ a, a ∈ ((cells s.dstHeight.toNat s.dstWidth.toNat).map fun p => dstAddr s p.1 p.2) ↔ InDst s a

/-- R76: the order of the writes of a transform cannot be observed: in any order of the cells, the loop leaves the same PMEM. -/
def Obligations.WriteOrderIsNotObservable : Prop :=
  ∀ (s : State) (l : List (Nat × Nat)) (m : Memory), TransformReady s → s.pmem.wf = true →
    l.Perm (cells s.dstHeight.toNat s.dstWidth.toNat) →
    (∀ xf yf fill, storeCells (dstRaster s) (squashCell (srcRaster s) xf yf fill) (cells s.dstHeight.toNat s.dstWidth.toNat) s.pmem = .ok m →
      storeCells (dstRaster s) (squashCell (srcRaster s) xf yf fill) l s.pmem = .ok m) ∧
    (s.dstWidth = s.srcWidth → s.dstHeight = s.srcHeight →
      (storeCells (dstRaster s) (rotateCell (srcRaster s)) (cells s.dstHeight.toNat s.dstWidth.toNat) s.pmem = .ok m →
        storeCells (dstRaster s) (rotateCell (srcRaster s)) l s.pmem = .ok m) ∧
      ∀ d, storeCells (dstRaster s) (blurCell (srcRaster s) d) (cells s.dstHeight.toNat s.dstWidth.toNat) s.pmem = .ok m →
        storeCells (dstRaster s) (blurCell (srcRaster s) d) l s.pmem = .ok m) ∧
    (s.dstWidth.toInt = 2 * s.srcWidth.toInt → s.dstHeight.toInt = 2 * s.srcHeight.toInt →
      storeCells (dstRaster s) (expandCell (srcRaster s)) (cells s.dstHeight.toNat s.dstWidth.toNat) s.pmem = .ok m →
      storeCells (dstRaster s) (expandCell (srcRaster s)) l s.pmem = .ok m)

/-- A command issued twice with the same registers leaves what it left the first time (R66). -/
def Obligations.CommandsAreIdempotent : Prop :=
  ∀ (i : Instr) (s t : State), s.pmem.wf = true → exec i s = .next t → exec i t = .next t

/-! ## Model faults -/

/-- R77, R212: a transform over the whole of SRC stops at UNWRITTEN_READ if any word of SRC is Unwritten; SQUASH stops so if a pixel it
samples is. -/
def Obligations.UnwrittenSourceWordStopsTheTransform : Prop :=
  ∀ (s : State) (a : Nat), TransformReady s → InSrc s a → s.pmem.read a = none →
    (s.dstWidth = s.srcWidth → s.dstHeight = s.srcHeight → exec .colorRotate s = .fault .unwrittenRead) ∧
    (s.dstWidth = s.srcWidth → s.dstHeight = s.srcHeight → 0 ≤ s.arg0.toInt → exec .blur s = .fault .unwrittenRead) ∧
    (s.dstWidth.toInt = 2 * s.srcWidth.toInt → s.dstHeight.toInt = 2 * s.srcHeight.toInt →
      exec .expand s = .fault .unwrittenRead) ∧
    (1 ≤ s.arg0.toInt → 1 ≤ s.arg1.toInt → ∀ row col, row < s.dstHeight.toNat → col < s.dstWidth.toNat →
      row * s.arg1.toNat < s.srcHeight.toNat → col * s.arg0.toNat < s.srcWidth.toNat →
      a = srcAddr s (row * s.arg1.toNat) (col * s.arg0.toNat) → exec .squash s = .fault .unwrittenRead)

/-- The only model faults of a step (R212): UNWRITTEN_READ, of a HostMemRead of an Unwritten word or of a transform whose checks pass
and whose SRC has an Unwritten word. AVG_EMPTY is never reached. -/
def Obligations.OnlyUnwrittenReadsFault : Prop :=
  ∀ (s : State) (f : Fault), s.fault = none → step s = .fault f →
    f = .unwrittenRead ∧
    ((∃ a rest, s.pending = .memRead a :: rest ∧ a < s.cfg.pmemWords ∧ s.pmem.read a = none) ∨
     ∃ w i rest a, s.pending = .regWrite 0x00 w :: rest ∧ decode w = .ok i ∧ isTransform i = true ∧ TransformReady s ∧
       InSrc s a ∧ s.pmem.read a = none)

/-- A model fault is recorded, changes nothing else, and is final (R212): no later action, STATUS clear or reset removes it. -/
def Obligations.AModelFaultIsFinal : Prop :=
  (∀ (s : State) (f : Fault), step s = .fault f → stateAfter s = { s with fault := some f }) ∧
  (∀ (s : State) (f : Fault), s.fault = some f → step s = .fault f ∧ stateAfter s = s) ∧
  ∀ s t : State, step s = .next t → t.fault = none

/-! ## The host's ports -/

/-- R30, R61: what a RegWrite to each slot but CMD and STATUS does. RESULT and the reserved slots ignore it; the others store all 32
bits. -/
def Obligations.RegisterWritesStoreTheirValue : Prop :=
  ∀ (s : State) (off : Nat) (v : Word) (rest : List HostAction), Awaits s (.regWrite off v) rest →
    (off = 0x10 → step s = .next { s with pending := rest, position := s.position + 1, srcBase := v }) ∧
    (off = 0x14 → step s = .next { s with pending := rest, position := s.position + 1, srcWidth := v }) ∧
    (off = 0x18 → step s = .next { s with pending := rest, position := s.position + 1, srcHeight := v }) ∧
    (off = 0x20 → step s = .next { s with pending := rest, position := s.position + 1, dstBase := v }) ∧
    (off = 0x24 → step s = .next { s with pending := rest, position := s.position + 1, dstWidth := v }) ∧
    (off = 0x28 → step s = .next { s with pending := rest, position := s.position + 1, dstHeight := v }) ∧
    (off = 0x30 → step s = .next { s with pending := rest, position := s.position + 1, arg0 := v }) ∧
    (off = 0x34 → step s = .next { s with pending := rest, position := s.position + 1, arg1 := v }) ∧
    (off = 0x38 → step s = .next { s with pending := rest, position := s.position + 1, arg2 := v }) ∧
    (off = 0x3C → step s = .next { s with pending := rest, position := s.position + 1, arg3 := v }) ∧
    (off = 0x08 ∨ off = 0x0C ∨ off = 0x1C ∨ off = 0x2C →
      step s = .next { s with pending := rest, position := s.position + 1 })

/-- R30, R61: the value a RegRead of each slot returns, and that it changes nothing else. -/
def Obligations.RegisterReadsReturnTheirValue : Prop :=
  ∀ (s : State) (off : Nat) (rest : List HostAction), Awaits s (.regRead off) rest →
    ∀ v, ((off = 0x00 ∨ off = 0x0C ∨ off = 0x1C ∨ off = 0x2C) ∧ v = 0x00000000#32) ∨ (off = 0x04 ∧ v = s.status) ∨
      (off = 0x08 ∧ v = s.result) ∨ (off = 0x10 ∧ v = s.srcBase) ∨ (off = 0x14 ∧ v = s.srcWidth) ∨
      (off = 0x18 ∧ v = s.srcHeight) ∨ (off = 0x20 ∧ v = s.dstBase) ∨ (off = 0x24 ∧ v = s.dstWidth) ∨
      (off = 0x28 ∧ v = s.dstHeight) ∨ (off = 0x30 ∧ v = s.arg0) ∨ (off = 0x34 ∧ v = s.arg1) ∨
      (off = 0x38 ∧ v = s.arg2) ∨ (off = 0x3C ∧ v = s.arg3) →
    step s = .next { s with pending := rest, position := s.position + 1, reads := s.reads ++ [v] }

/-- R62: the memory port. A write inside PMEM stores its word and leaves every other word; a read returns the stored word; a read of an
Unwritten word is the model fault; an address at or above PMEM_WORDS is refused. -/
def Obligations.MemoryPortReadsAndWrites : Prop :=
  ∀ (s : State) (a : Nat) (rest : List HostAction),
    (∀ v, Awaits s (.memWrite a v) rest →
      (a < s.cfg.pmemWords → ∃ m, step s = .next { s with pending := rest, position := s.position + 1, pmem := m } ∧
        m.read a = some v ∧ ∀ b, b ≠ a → m.read b = s.pmem.read b) ∧
      (s.cfg.pmemWords ≤ a → step s = .refused .addressBeyondPmem)) ∧
    (Awaits s (.memRead a) rest →
      (a < s.cfg.pmemWords → ∀ v, s.pmem.read a = some v →
        step s = .next { s with pending := rest, position := s.position + 1, reads := s.reads ++ [v] }) ∧
      (a < s.cfg.pmemWords → s.pmem.read a = none → step s = .fault .unwrittenRead) ∧
      (s.cfg.pmemWords ≤ a → step s = .refused .addressBeyondPmem))

/-- A step is refused exactly when its action is one of the accesses that R213 refuses. Each is refused by a name of its own, and an offset both
misaligned and above 0x3C is refused as misaligned: the names and this order are the model's choice (log entry 7). -/
def Obligations.ExactlyTheIllFormedAccessesAreRefused : Prop :=
  (∀ s : State, (∃ r, step s = .refused r) ↔
    s.fault = none ∧ ∃ a rest, s.pending = a :: rest ∧ a.wellFormed s.cfg = false) ∧
  ∀ (s : State) (off bits a : Nat) (v : Word) (rest : List HostAction),
    ((Awaits s (.regWrite off v) rest ∨ Awaits s (.regRead off) rest) → off % 4 ≠ 0 → step s = .refused .misalignedOffset) ∧
    ((Awaits s (.regWrite off v) rest ∨ Awaits s (.regRead off) rest) → off % 4 = 0 → 0x3C < off →
      step s = .refused .offsetBeyondSlots) ∧
    ((Awaits s (.memWrite a v) rest ∨ Awaits s (.memRead a) rest) → s.cfg.pmemWords ≤ a → step s = .refused .addressBeyondPmem) ∧
    (Awaits s (.otherWidth bits) rest → step s = .refused .otherWidth)

/-- A read returns the last write (R69), of PMEM: after a write, the next action reads the new word there, and elsewhere the word that
stood there. -/
def Obligations.AReadReturnsTheLastWrite : Prop :=
  ∀ (s : State) (a b : Nat) (v : Word) (rest : List HostAction), Awaits s (.memWrite a v) (.memRead b :: rest) →
    a < s.cfg.pmemWords → b < s.cfg.pmemWords →
    ∃ t, step s = .next t ∧
      (b = a → ∃ u, step t = .next u ∧ u.reads = s.reads ++ [v] ∧ u.pmem = t.pmem) ∧
      (b ≠ a → ∀ w, s.pmem.read b = some w → ∃ u, step t = .next u ∧ u.reads = s.reads ++ [w] ∧ u.pmem = t.pmem) ∧
      (b ≠ a → s.pmem.read b = none → step t = .fault .unwrittenRead)

/-! ## Whole-machine rules -/

/-- The invariant holds after reset. -/
def Obligations.ResetSatisfiesTheInvariant : Prop := StateInv State.reset

/-- Every step keeps the invariant: PMEM stays canonical and inside the address space (R60), STATUS keeps one of its legal values, so
ERR = 0 implies STATUS = 0 (R32). -/
def Obligations.StepKeepsTheInvariant : Prop := ∀ s t : State, StateInv s → step s = .next t → StateInv t

/-- The descriptor and ARG registers change only by a RegWrite of the host to their own offset, or by a reset (R33, R34): no command
changes them. -/
def Obligations.OnlyTheHostWritesOperandRegisters : Prop :=
  ∀ (s t : State), step s = .next t →
    ∀ slot ∈ [Slot.srcBase, .srcWidth, .srcHeight, .dstBase, .dstWidth, .dstHeight, .arg0, .arg1, .arg2, .arg3],
      readSlot t slot ≠ readSlot s slot →
      (∃ v rest, s.pending = .regWrite slot.offset v :: rest ∧ readSlot t slot = v) ∨
      (∃ rest, s.pending = .reset :: rest) ∨ ∃ rest, s.pending = .powerOn :: rest

/-- R35: RESULT changes only by a MAKE_PIXEL, GET or INDEX command issued outside the error state that raises no error, or by a reset. -/
def Obligations.ResultHoldsTheLastScalarResult : Prop :=
  ∀ (s t : State), step s = .next t → t.result ≠ s.result →
    (∃ w i rest, s.pending = .regWrite 0x00 w :: rest ∧ decode w = .ok i ∧ isTransform i = false ∧
      s.status.getLsbD 0 = false ∧ t.status = s.status) ∨
    (∃ rest, s.pending = .reset :: rest) ∨ ∃ rest, s.pending = .powerOn :: rest

/-- The parameters never change (log entry 1), a step takes exactly one action and moves the position up by 1, and a machine with no
action left is idle (R37, R217, R246; idle stepping is log entry 6). -/
def Obligations.EachStepTakesOneAction : Prop :=
  ∀ s t : State, step s = .next t →
    t.cfg = s.cfg ∧
    ((s.pending = [] ∧ t = s) ∨ (∃ a, s.pending = a :: t.pending ∧ t.position = s.position + 1))

/-- A run that completes has taken every action, with no model fault from its start to its end (R246, R247). That this covers a run with no
action, from a state with a recorded fault, is the model's choice (log entry 23). -/
def Obligations.ACompletedRunTookEveryAction : Prop :=
  ∀ s t : State, runAll s = .completed t →
    t.pending = [] ∧ t.position = s.position + s.pending.length ∧ s.fault = none ∧ t.fault = none

/-- HOST_BYTE_ORDER, REG_BASE and PMEM_BASE are observed by no step (R8: "No rule of this spec depends on it"). -/
def Obligations.PlatformParametersAreNotObserved : Prop :=
  ∀ (s : State) (order : ByteOrder) (regBase pmemBase : Nat),
    step { s with cfg := { s.cfg with hostByteOrder := order, regBase := regBase, pmemBase := pmemBase } } =
      match step s with
      | .next t => .next { t with cfg := { t.cfg with hostByteOrder := order, regBase := regBase, pmemBase := pmemBase } }
      | .fault f => .fault f
      | .refused r => .refused r

/-! ## Reset -/

/-- R42: the state after a power-on reset, a reset while powered, and the error any command that uses SRC raises after either. -/
def Obligations.ResetValues : Prop :=
  (∀ slot : Slot, readSlot State.reset slot = 0x00000000#32) ∧
  State.reset.fault = none ∧ (∀ a, State.reset.pmem.read a = none) ∧
  (∀ (s : State) (rest : List HostAction), Awaits s .reset rest → ∃ t, step s = .next t ∧
    (∀ slot, readSlot t slot = 0x00000000#32) ∧ t.pmem = s.pmem ∧ t.fault = none ∧
    ∀ i, usesSrc i = true → exec i t = .next { t with status := statusValue 2 ((encode i).toNat % 256) }) ∧
  ∀ i, usesSrc i = true → exec i State.reset = .next { State.reset with status := statusValue 2 ((encode i).toNat % 256) }

/-- R240: a reset while powered clears every register, the error state with them, and leaves PMEM; a power-on reset makes every word of
PMEM Unwritten too. Neither touches the host's side (log entry 8). -/
def Obligations.ResetClearsTheRegisters : Prop :=
  ∀ (s : State) (rest : List HostAction),
    (Awaits s .reset rest → ∃ t, step s = .next t ∧ (∀ slot, readSlot t slot = 0x00000000#32) ∧ t.pmem = s.pmem ∧
      t.cfg = s.cfg ∧ t.reads = s.reads ∧ t.pending = rest ∧ t.fault = none) ∧
    (Awaits s .powerOn rest → ∃ t, step s = .next t ∧ (∀ slot, readSlot t slot = 0x00000000#32) ∧
      (∀ a, t.pmem.read a = none) ∧ t.cfg = s.cfg ∧ t.reads = s.reads ∧ t.pending = rest ∧ t.fault = none)

/-- R240, last sentence: a reset inside a transform leaves every word of its DST region Unwritten and the other words as they were. No
step takes it (log entry 9). -/
def Obligations.ResetInsideATransformUnwritesDst : Prop :=
  ∀ (i : Instr) (s : State), isTransform i = true →
    (∀ slot, readSlot (s.resetInsideCommand i) slot = 0x00000000#32) ∧
    (∀ a, InDst s a → (s.resetInsideCommand i).pmem.read a = none) ∧
    ∀ a, ¬InDst s a → (s.resetInsideCommand i).pmem.read a = s.pmem.read a

/-! ## The host's notation -/

/-- R99: each pseudo-instruction's expansion, on values. -/
def Obligations.PseudoInstructionsExpand : Prop :=
  (∀ i, (AsmLine.cmd i).expand = [.regWrite 0x00 (encode i)]) ∧
  (∀ b w h, (AsmLine.setsrc b w h).expand = [.regWrite 0x10 b, .regWrite 0x14 w, .regWrite 0x18 h]) ∧
  (∀ b w h, (AsmLine.setdst b w h).expand = [.regWrite 0x20 b, .regWrite 0x24 w, .regWrite 0x28 h]) ∧
  (∀ v₀ v₁ v₂ v₃, (AsmLine.setargs [v₀, v₁, v₂, v₃]).expand =
    [.regWrite 0x30 v₀, .regWrite 0x34 v₁, .regWrite 0x38 v₂, .regWrite 0x3C v₃]) ∧
  (∀ v₀ v₁ v₂, (AsmLine.setargs [v₀, v₁, v₂]).expand = [.regWrite 0x30 v₀, .regWrite 0x34 v₁, .regWrite 0x38 v₂]) ∧
  (∀ v₀ v₁, (AsmLine.setargs [v₀, v₁]).expand = [.regWrite 0x30 v₀, .regWrite 0x34 v₁]) ∧
  (∀ v₀, (AsmLine.setargs [v₀]).expand = [.regWrite 0x30 v₀]) ∧
  AsmLine.clrerr.expand = [.regWrite 0x04 0x00000001#32] ∧
  ∀ a vs, (AsmLine.wmemv a vs).expand = vs.mapIdx fun k v => .memWrite (a + k) v
end

