-- ==== Sys2Proof/Laws/State.lean ====
section
/-!
SUPPORT. What each update of the state does to each field, so that no proof unfolds an update.
-/

namespace Sys2Proof.Machine

variable (s : State)

/-! ## State.setStatus -/

@[simp] theorem State.setStatus_status (v : Word) : (s.setStatus v).status = v := rfl
@[simp] theorem State.setStatus_result (v : Word) : (s.setStatus v).result = s.result := rfl
@[simp] theorem State.setStatus_srcBase (v : Word) : (s.setStatus v).srcBase = s.srcBase := rfl
@[simp] theorem State.setStatus_srcWidth (v : Word) : (s.setStatus v).srcWidth = s.srcWidth := rfl
@[simp] theorem State.setStatus_srcHeight (v : Word) : (s.setStatus v).srcHeight = s.srcHeight := rfl
@[simp] theorem State.setStatus_dstBase (v : Word) : (s.setStatus v).dstBase = s.dstBase := rfl
@[simp] theorem State.setStatus_dstWidth (v : Word) : (s.setStatus v).dstWidth = s.dstWidth := rfl
@[simp] theorem State.setStatus_dstHeight (v : Word) : (s.setStatus v).dstHeight = s.dstHeight := rfl
@[simp] theorem State.setStatus_arg0 (v : Word) : (s.setStatus v).arg0 = s.arg0 := rfl
@[simp] theorem State.setStatus_arg1 (v : Word) : (s.setStatus v).arg1 = s.arg1 := rfl
@[simp] theorem State.setStatus_arg2 (v : Word) : (s.setStatus v).arg2 = s.arg2 := rfl
@[simp] theorem State.setStatus_arg3 (v : Word) : (s.setStatus v).arg3 = s.arg3 := rfl
@[simp] theorem State.setStatus_pmem (v : Word) : (s.setStatus v).pmem = s.pmem := rfl
@[simp] theorem State.setStatus_fault (v : Word) : (s.setStatus v).fault = s.fault := rfl
@[simp] theorem State.setStatus_cfg (v : Word) : (s.setStatus v).cfg = s.cfg := rfl
@[simp] theorem State.setStatus_pending (v : Word) : (s.setStatus v).pending = s.pending := rfl
@[simp] theorem State.setStatus_position (v : Word) : (s.setStatus v).position = s.position := rfl
@[simp] theorem State.setStatus_reads (v : Word) : (s.setStatus v).reads = s.reads := rfl

/-! ## State.setResult -/

@[simp] theorem State.setResult_status (v : Word) : (s.setResult v).status = s.status := rfl
@[simp] theorem State.setResult_result (v : Word) : (s.setResult v).result = v := rfl
@[simp] theorem State.setResult_srcBase (v : Word) : (s.setResult v).srcBase = s.srcBase := rfl
@[simp] theorem State.setResult_srcWidth (v : Word) : (s.setResult v).srcWidth = s.srcWidth := rfl
@[simp] theorem State.setResult_srcHeight (v : Word) : (s.setResult v).srcHeight = s.srcHeight := rfl
@[simp] theorem State.setResult_dstBase (v : Word) : (s.setResult v).dstBase = s.dstBase := rfl
@[simp] theorem State.setResult_dstWidth (v : Word) : (s.setResult v).dstWidth = s.dstWidth := rfl
@[simp] theorem State.setResult_dstHeight (v : Word) : (s.setResult v).dstHeight = s.dstHeight := rfl
@[simp] theorem State.setResult_arg0 (v : Word) : (s.setResult v).arg0 = s.arg0 := rfl
@[simp] theorem State.setResult_arg1 (v : Word) : (s.setResult v).arg1 = s.arg1 := rfl
@[simp] theorem State.setResult_arg2 (v : Word) : (s.setResult v).arg2 = s.arg2 := rfl
@[simp] theorem State.setResult_arg3 (v : Word) : (s.setResult v).arg3 = s.arg3 := rfl
@[simp] theorem State.setResult_pmem (v : Word) : (s.setResult v).pmem = s.pmem := rfl
@[simp] theorem State.setResult_fault (v : Word) : (s.setResult v).fault = s.fault := rfl
@[simp] theorem State.setResult_cfg (v : Word) : (s.setResult v).cfg = s.cfg := rfl
@[simp] theorem State.setResult_pending (v : Word) : (s.setResult v).pending = s.pending := rfl
@[simp] theorem State.setResult_position (v : Word) : (s.setResult v).position = s.position := rfl
@[simp] theorem State.setResult_reads (v : Word) : (s.setResult v).reads = s.reads := rfl

/-! ## State.setPmem -/

@[simp] theorem State.setPmem_status (m : Memory) : (s.setPmem m).status = s.status := rfl
@[simp] theorem State.setPmem_result (m : Memory) : (s.setPmem m).result = s.result := rfl
@[simp] theorem State.setPmem_srcBase (m : Memory) : (s.setPmem m).srcBase = s.srcBase := rfl
@[simp] theorem State.setPmem_srcWidth (m : Memory) : (s.setPmem m).srcWidth = s.srcWidth := rfl
@[simp] theorem State.setPmem_srcHeight (m : Memory) : (s.setPmem m).srcHeight = s.srcHeight := rfl
@[simp] theorem State.setPmem_dstBase (m : Memory) : (s.setPmem m).dstBase = s.dstBase := rfl
@[simp] theorem State.setPmem_dstWidth (m : Memory) : (s.setPmem m).dstWidth = s.dstWidth := rfl
@[simp] theorem State.setPmem_dstHeight (m : Memory) : (s.setPmem m).dstHeight = s.dstHeight := rfl
@[simp] theorem State.setPmem_arg0 (m : Memory) : (s.setPmem m).arg0 = s.arg0 := rfl
@[simp] theorem State.setPmem_arg1 (m : Memory) : (s.setPmem m).arg1 = s.arg1 := rfl
@[simp] theorem State.setPmem_arg2 (m : Memory) : (s.setPmem m).arg2 = s.arg2 := rfl
@[simp] theorem State.setPmem_arg3 (m : Memory) : (s.setPmem m).arg3 = s.arg3 := rfl
@[simp] theorem State.setPmem_pmem (m : Memory) : (s.setPmem m).pmem = m := rfl
@[simp] theorem State.setPmem_fault (m : Memory) : (s.setPmem m).fault = s.fault := rfl
@[simp] theorem State.setPmem_cfg (m : Memory) : (s.setPmem m).cfg = s.cfg := rfl
@[simp] theorem State.setPmem_pending (m : Memory) : (s.setPmem m).pending = s.pending := rfl
@[simp] theorem State.setPmem_position (m : Memory) : (s.setPmem m).position = s.position := rfl
@[simp] theorem State.setPmem_reads (m : Memory) : (s.setPmem m).reads = s.reads := rfl

/-! ## State.pushRead -/

@[simp] theorem State.pushRead_status (v : Word) : (s.pushRead v).status = s.status := rfl
@[simp] theorem State.pushRead_result (v : Word) : (s.pushRead v).result = s.result := rfl
@[simp] theorem State.pushRead_srcBase (v : Word) : (s.pushRead v).srcBase = s.srcBase := rfl
@[simp] theorem State.pushRead_srcWidth (v : Word) : (s.pushRead v).srcWidth = s.srcWidth := rfl
@[simp] theorem State.pushRead_srcHeight (v : Word) : (s.pushRead v).srcHeight = s.srcHeight := rfl
@[simp] theorem State.pushRead_dstBase (v : Word) : (s.pushRead v).dstBase = s.dstBase := rfl
@[simp] theorem State.pushRead_dstWidth (v : Word) : (s.pushRead v).dstWidth = s.dstWidth := rfl
@[simp] theorem State.pushRead_dstHeight (v : Word) : (s.pushRead v).dstHeight = s.dstHeight := rfl
@[simp] theorem State.pushRead_arg0 (v : Word) : (s.pushRead v).arg0 = s.arg0 := rfl
@[simp] theorem State.pushRead_arg1 (v : Word) : (s.pushRead v).arg1 = s.arg1 := rfl
@[simp] theorem State.pushRead_arg2 (v : Word) : (s.pushRead v).arg2 = s.arg2 := rfl
@[simp] theorem State.pushRead_arg3 (v : Word) : (s.pushRead v).arg3 = s.arg3 := rfl
@[simp] theorem State.pushRead_pmem (v : Word) : (s.pushRead v).pmem = s.pmem := rfl
@[simp] theorem State.pushRead_fault (v : Word) : (s.pushRead v).fault = s.fault := rfl
@[simp] theorem State.pushRead_cfg (v : Word) : (s.pushRead v).cfg = s.cfg := rfl
@[simp] theorem State.pushRead_pending (v : Word) : (s.pushRead v).pending = s.pending := rfl
@[simp] theorem State.pushRead_position (v : Word) : (s.pushRead v).position = s.position := rfl
@[simp] theorem State.pushRead_reads (v : Word) : (s.pushRead v).reads = s.reads ++ [v] := rfl

/-! ## State.popAction -/

@[simp] theorem State.popAction_status (l : List HostAction) : (s.popAction l).status = s.status := rfl
@[simp] theorem State.popAction_result (l : List HostAction) : (s.popAction l).result = s.result := rfl
@[simp] theorem State.popAction_srcBase (l : List HostAction) : (s.popAction l).srcBase = s.srcBase := rfl
@[simp] theorem State.popAction_srcWidth (l : List HostAction) : (s.popAction l).srcWidth = s.srcWidth := rfl
@[simp] theorem State.popAction_srcHeight (l : List HostAction) : (s.popAction l).srcHeight = s.srcHeight := rfl
@[simp] theorem State.popAction_dstBase (l : List HostAction) : (s.popAction l).dstBase = s.dstBase := rfl
@[simp] theorem State.popAction_dstWidth (l : List HostAction) : (s.popAction l).dstWidth = s.dstWidth := rfl
@[simp] theorem State.popAction_dstHeight (l : List HostAction) : (s.popAction l).dstHeight = s.dstHeight := rfl
@[simp] theorem State.popAction_arg0 (l : List HostAction) : (s.popAction l).arg0 = s.arg0 := rfl
@[simp] theorem State.popAction_arg1 (l : List HostAction) : (s.popAction l).arg1 = s.arg1 := rfl
@[simp] theorem State.popAction_arg2 (l : List HostAction) : (s.popAction l).arg2 = s.arg2 := rfl
@[simp] theorem State.popAction_arg3 (l : List HostAction) : (s.popAction l).arg3 = s.arg3 := rfl
@[simp] theorem State.popAction_pmem (l : List HostAction) : (s.popAction l).pmem = s.pmem := rfl
@[simp] theorem State.popAction_fault (l : List HostAction) : (s.popAction l).fault = s.fault := rfl
@[simp] theorem State.popAction_cfg (l : List HostAction) : (s.popAction l).cfg = s.cfg := rfl
@[simp] theorem State.popAction_pending (l : List HostAction) : (s.popAction l).pending = l := rfl
@[simp] theorem State.popAction_position (l : List HostAction) : (s.popAction l).position = s.position + 1 := rfl
@[simp] theorem State.popAction_reads (l : List HostAction) : (s.popAction l).reads = s.reads := rfl

/-! ## State.setFault -/

@[simp] theorem State.setFault_status (f : Fault) : (s.setFault f).status = s.status := rfl
@[simp] theorem State.setFault_result (f : Fault) : (s.setFault f).result = s.result := rfl
@[simp] theorem State.setFault_srcBase (f : Fault) : (s.setFault f).srcBase = s.srcBase := rfl
@[simp] theorem State.setFault_srcWidth (f : Fault) : (s.setFault f).srcWidth = s.srcWidth := rfl
@[simp] theorem State.setFault_srcHeight (f : Fault) : (s.setFault f).srcHeight = s.srcHeight := rfl
@[simp] theorem State.setFault_dstBase (f : Fault) : (s.setFault f).dstBase = s.dstBase := rfl
@[simp] theorem State.setFault_dstWidth (f : Fault) : (s.setFault f).dstWidth = s.dstWidth := rfl
@[simp] theorem State.setFault_dstHeight (f : Fault) : (s.setFault f).dstHeight = s.dstHeight := rfl
@[simp] theorem State.setFault_arg0 (f : Fault) : (s.setFault f).arg0 = s.arg0 := rfl
@[simp] theorem State.setFault_arg1 (f : Fault) : (s.setFault f).arg1 = s.arg1 := rfl
@[simp] theorem State.setFault_arg2 (f : Fault) : (s.setFault f).arg2 = s.arg2 := rfl
@[simp] theorem State.setFault_arg3 (f : Fault) : (s.setFault f).arg3 = s.arg3 := rfl
@[simp] theorem State.setFault_pmem (f : Fault) : (s.setFault f).pmem = s.pmem := rfl
@[simp] theorem State.setFault_fault (f : Fault) : (s.setFault f).fault = some f := rfl
@[simp] theorem State.setFault_cfg (f : Fault) : (s.setFault f).cfg = s.cfg := rfl
@[simp] theorem State.setFault_pending (f : Fault) : (s.setFault f).pending = s.pending := rfl
@[simp] theorem State.setFault_position (f : Fault) : (s.setFault f).position = s.position := rfl
@[simp] theorem State.setFault_reads (f : Fault) : (s.setFault f).reads = s.reads := rfl

/-! ## State.resetRegisters -/

@[simp] theorem State.resetRegisters_status : (s.resetRegisters).status = 0#32 := rfl
@[simp] theorem State.resetRegisters_result : (s.resetRegisters).result = 0#32 := rfl
@[simp] theorem State.resetRegisters_srcBase : (s.resetRegisters).srcBase = 0#32 := rfl
@[simp] theorem State.resetRegisters_srcWidth : (s.resetRegisters).srcWidth = 0#32 := rfl
@[simp] theorem State.resetRegisters_srcHeight : (s.resetRegisters).srcHeight = 0#32 := rfl
@[simp] theorem State.resetRegisters_dstBase : (s.resetRegisters).dstBase = 0#32 := rfl
@[simp] theorem State.resetRegisters_dstWidth : (s.resetRegisters).dstWidth = 0#32 := rfl
@[simp] theorem State.resetRegisters_dstHeight : (s.resetRegisters).dstHeight = 0#32 := rfl
@[simp] theorem State.resetRegisters_arg0 : (s.resetRegisters).arg0 = 0#32 := rfl
@[simp] theorem State.resetRegisters_arg1 : (s.resetRegisters).arg1 = 0#32 := rfl
@[simp] theorem State.resetRegisters_arg2 : (s.resetRegisters).arg2 = 0#32 := rfl
@[simp] theorem State.resetRegisters_arg3 : (s.resetRegisters).arg3 = 0#32 := rfl
@[simp] theorem State.resetRegisters_pmem : (s.resetRegisters).pmem = s.pmem := rfl
@[simp] theorem State.resetRegisters_fault : (s.resetRegisters).fault = s.fault := rfl
@[simp] theorem State.resetRegisters_cfg : (s.resetRegisters).cfg = s.cfg := rfl
@[simp] theorem State.resetRegisters_pending : (s.resetRegisters).pending = s.pending := rfl
@[simp] theorem State.resetRegisters_position : (s.resetRegisters).position = s.position := rfl
@[simp] theorem State.resetRegisters_reads : (s.resetRegisters).reads = s.reads := rfl

/-! ## State.powerOn -/

@[simp] theorem State.powerOn_status : (s.powerOn).status = 0#32 := rfl
@[simp] theorem State.powerOn_result : (s.powerOn).result = 0#32 := rfl
@[simp] theorem State.powerOn_srcBase : (s.powerOn).srcBase = 0#32 := rfl
@[simp] theorem State.powerOn_srcWidth : (s.powerOn).srcWidth = 0#32 := rfl
@[simp] theorem State.powerOn_srcHeight : (s.powerOn).srcHeight = 0#32 := rfl
@[simp] theorem State.powerOn_dstBase : (s.powerOn).dstBase = 0#32 := rfl
@[simp] theorem State.powerOn_dstWidth : (s.powerOn).dstWidth = 0#32 := rfl
@[simp] theorem State.powerOn_dstHeight : (s.powerOn).dstHeight = 0#32 := rfl
@[simp] theorem State.powerOn_arg0 : (s.powerOn).arg0 = 0#32 := rfl
@[simp] theorem State.powerOn_arg1 : (s.powerOn).arg1 = 0#32 := rfl
@[simp] theorem State.powerOn_arg2 : (s.powerOn).arg2 = 0#32 := rfl
@[simp] theorem State.powerOn_arg3 : (s.powerOn).arg3 = 0#32 := rfl
@[simp] theorem State.powerOn_pmem : (s.powerOn).pmem = [] := rfl
@[simp] theorem State.powerOn_fault : (s.powerOn).fault = s.fault := rfl
@[simp] theorem State.powerOn_cfg : (s.powerOn).cfg = s.cfg := rfl
@[simp] theorem State.powerOn_pending : (s.powerOn).pending = s.pending := rfl
@[simp] theorem State.powerOn_position : (s.powerOn).position = s.position := rfl
@[simp] theorem State.powerOn_reads : (s.powerOn).reads = s.reads := rfl

/-! ## State.load -/

@[simp] theorem State.load_status (l : List HostAction) : (s.load l).status = s.status := rfl
@[simp] theorem State.load_result (l : List HostAction) : (s.load l).result = s.result := rfl
@[simp] theorem State.load_srcBase (l : List HostAction) : (s.load l).srcBase = s.srcBase := rfl
@[simp] theorem State.load_srcWidth (l : List HostAction) : (s.load l).srcWidth = s.srcWidth := rfl
@[simp] theorem State.load_srcHeight (l : List HostAction) : (s.load l).srcHeight = s.srcHeight := rfl
@[simp] theorem State.load_dstBase (l : List HostAction) : (s.load l).dstBase = s.dstBase := rfl
@[simp] theorem State.load_dstWidth (l : List HostAction) : (s.load l).dstWidth = s.dstWidth := rfl
@[simp] theorem State.load_dstHeight (l : List HostAction) : (s.load l).dstHeight = s.dstHeight := rfl
@[simp] theorem State.load_arg0 (l : List HostAction) : (s.load l).arg0 = s.arg0 := rfl
@[simp] theorem State.load_arg1 (l : List HostAction) : (s.load l).arg1 = s.arg1 := rfl
@[simp] theorem State.load_arg2 (l : List HostAction) : (s.load l).arg2 = s.arg2 := rfl
@[simp] theorem State.load_arg3 (l : List HostAction) : (s.load l).arg3 = s.arg3 := rfl
@[simp] theorem State.load_pmem (l : List HostAction) : (s.load l).pmem = s.pmem := rfl
@[simp] theorem State.load_fault (l : List HostAction) : (s.load l).fault = s.fault := rfl
@[simp] theorem State.load_cfg (l : List HostAction) : (s.load l).cfg = s.cfg := rfl
@[simp] theorem State.load_pending (l : List HostAction) : (s.load l).pending = l := rfl
@[simp] theorem State.load_position (l : List HostAction) : (s.load l).position = 0 := rfl
@[simp] theorem State.load_reads (l : List HostAction) : (s.load l).reads = [] := rfl

/-! ## State.withCommand -/

@[simp] theorem State.withCommand_status (w : Word) : (s.withCommand w).status = s.status := rfl
@[simp] theorem State.withCommand_result (w : Word) : (s.withCommand w).result = s.result := rfl
@[simp] theorem State.withCommand_srcBase (w : Word) : (s.withCommand w).srcBase = s.srcBase := rfl
@[simp] theorem State.withCommand_srcWidth (w : Word) : (s.withCommand w).srcWidth = s.srcWidth := rfl
@[simp] theorem State.withCommand_srcHeight (w : Word) : (s.withCommand w).srcHeight = s.srcHeight := rfl
@[simp] theorem State.withCommand_dstBase (w : Word) : (s.withCommand w).dstBase = s.dstBase := rfl
@[simp] theorem State.withCommand_dstWidth (w : Word) : (s.withCommand w).dstWidth = s.dstWidth := rfl
@[simp] theorem State.withCommand_dstHeight (w : Word) : (s.withCommand w).dstHeight = s.dstHeight := rfl
@[simp] theorem State.withCommand_arg0 (w : Word) : (s.withCommand w).arg0 = s.arg0 := rfl
@[simp] theorem State.withCommand_arg1 (w : Word) : (s.withCommand w).arg1 = s.arg1 := rfl
@[simp] theorem State.withCommand_arg2 (w : Word) : (s.withCommand w).arg2 = s.arg2 := rfl
@[simp] theorem State.withCommand_arg3 (w : Word) : (s.withCommand w).arg3 = s.arg3 := rfl
@[simp] theorem State.withCommand_pmem (w : Word) : (s.withCommand w).pmem = s.pmem := rfl
@[simp] theorem State.withCommand_fault (w : Word) : (s.withCommand w).fault = s.fault := rfl
@[simp] theorem State.withCommand_cfg (w : Word) : (s.withCommand w).cfg = s.cfg := rfl
@[simp] theorem State.withCommand_pending (w : Word) : (s.withCommand w).pending = .regWrite 0 w :: s.pending := rfl
@[simp] theorem State.withCommand_position (w : Word) : (s.withCommand w).position = s.position := rfl
@[simp] theorem State.withCommand_reads (w : Word) : (s.withCommand w).reads = s.reads := rfl

end Sys2Proof.Machine
end

