-- ==== Sys2Proof/Laws/Decode.lean ====
section
/-!
SUPPORT. The decoder and the encoder (R91 to R96): a word is its two fields, and what each decoding says of the fields.
-/

namespace Sys2Proof

theorem opcField_toNat (w : Word) : (opcField w).toNat = w.toNat % 256 := by
  simp only [opcField, BitVec.extractLsb_toNat, Nat.shiftRight_eq_div_pow]
  omega

theorem rsvField_toNat (w : Word) : (rsvField w).toNat = w.toNat / 256 := by
  simp only [rsvField, BitVec.extractLsb_toNat, Nat.shiftRight_eq_div_pow]
  have := w.isLt
  omega

theorem rsvField_eq_zero (w : Word) : rsvField w = 0#24 ↔ w.toNat < 256 := by
  rw [← BitVec.toNat_inj, rsvField_toNat]
  simp only [BitVec.toNat_ofNat]
  omega

/-- Two words with the same fields are the same word. -/
theorem word_ext_fields {v w : Word} (ho : opcField v = opcField w) (hr : rsvField v = rsvField w) : v = w := by
  apply BitVec.eq_of_toNat_eq
  have ho := congrArg BitVec.toNat ho
  have hr := congrArg BitVec.toNat hr
  rw [opcField_toNat, opcField_toNat] at ho
  rw [rsvField_toNat, rsvField_toNat] at hr
  omega

theorem rsvField_encode (i : Instr) : rsvField (encode i) = 0#24 := by cases i <;> rfl

/-- What a decoding says of the two fields: RSV is 0 and OPC is the opcode of the command (R94, R96). -/
theorem fields_of_decode {w : Word} {i : Instr} (h : decode w = .ok i) :
    rsvField w = 0#24 ∧ (opcField w).toNat = (opcField (encode i)).toNat := by
  unfold decode at h
  split at h
  · cases h
  · rename_i hr
    refine ⟨not_not.mp hr, ?_⟩
    split at h <;> cases h <;> assumption

@[simp] theorem decode_encode (i : Instr) : decode (encode i) = .ok i := by cases i <;> rfl

end Sys2Proof
end

