-- ==== Sys2Proof/Laws/Status.lean ====
section
/-!
SUPPORT. STATUS as a number and its fields (R32, R203).
-/

namespace Sys2Proof.Machine

theorem ErrCode.ecode_pos (e : ErrCode) : 1 ≤ e.ecode := by cases e <;> decide
theorem ErrCode.ecode_le (e : ErrCode) : e.ecode ≤ 9 := by cases e <;> decide
theorem ErrCode.ecode_injective : Function.Injective ErrCode.ecode := by
  intro a b h
  cases a <;> cases b <;> first | rfl | exact absurd h (by decide)

/-- The STATUS word of an error as a number (R203). -/
theorem errorStatus_toNat (e : ErrCode) (w : Word) :
    (errorStatus e w).toNat = w.toNat % 256 * 256 + e.ecode * 16 + 1 := by
  have ho : (opcField w).toNat < 256 := (opcField w).isLt
  have hdis : (errorStatus e w).toNat = ((opcField w).toNat <<< 8 ||| e.ecode <<< 4) ||| 1 := by
    have he := e.ecode_le
    simp only [errorStatus, BitVec.toNat_or, BitVec.toNat_shiftLeft, BitVec.toNat_setWidth, BitVec.toNat_ofNat,
      Nat.shiftLeft_eq]
    rw [Nat.mod_eq_of_lt (show (opcField w).toNat < 2 ^ 32 by omega), Nat.mod_eq_of_lt (show e.ecode < 2 ^ 32 by omega),
      Nat.mod_eq_of_lt (show (opcField w).toNat * 2 ^ 8 < 2 ^ 32 by omega),
      Nat.mod_eq_of_lt (show e.ecode * 2 ^ 4 < 2 ^ 32 by omega)]
  have he : e.ecode <<< 4 < 2 ^ 8 := by have := e.ecode_le; simp only [Nat.shiftLeft_eq]; omega
  have h1 : ((opcField w).toNat <<< 8 + e.ecode <<< 4) = ((opcField w).toNat * 16 + e.ecode) <<< 4 := by
    simp only [Nat.shiftLeft_eq]; omega
  rw [hdis, ← Nat.shiftLeft_add_eq_or_of_lt he, h1, ← Nat.shiftLeft_add_eq_or_of_lt (by decide : 1 < 2 ^ 4), Nat.shiftLeft_eq,
    opcField_toNat]
  omega

theorem errFlag_eq (v : Word) : errFlag v = decide (v.toNat % 2 = 1) := by
  simp [errFlag, BitVec.getLsbD, Nat.testBit_zero]

theorem ecodeField_toNat (v : Word) : (ecodeField v).toNat = v.toNat / 16 % 16 := by
  simp only [ecodeField, BitVec.extractLsb_toNat, Nat.shiftRight_eq_div_pow]

theorem eopcField_toNat (v : Word) : (eopcField v).toNat = v.toNat / 256 % 256 := by
  simp only [eopcField, BitVec.extractLsb_toNat, Nat.shiftRight_eq_div_pow]

@[simp] theorem errFlag_zero : errFlag 0#32 = false := rfl

@[simp] theorem errFlag_errorStatus (e : ErrCode) (w : Word) : errFlag (errorStatus e w) = true := by
  rw [errFlag_eq, errorStatus_toNat]
  simp only [decide_eq_true_eq]
  omega

/-- An error's STATUS holds the code of the error (R201). -/
theorem ecodeField_errorStatus (e : ErrCode) (w : Word) : (ecodeField (errorStatus e w)).toNat = e.ecode := by
  rw [ecodeField_toNat, errorStatus_toNat]
  have := e.ecode_le
  omega

/-- An error's STATUS holds bits 7:0 of the command word (R201). -/
theorem eopcField_errorStatus (e : ErrCode) (w : Word) : eopcField (errorStatus e w) = opcField w := by
  apply BitVec.eq_of_toNat_eq
  rw [eopcField_toNat, errorStatus_toNat, opcField_toNat]
  have := e.ecode_le
  omega

@[simp] theorem statusLegal_zero : statusLegal 0#32 = true := rfl

@[simp] theorem statusLegal_errorStatus (e : ErrCode) (w : Word) : statusLegal (errorStatus e w) = true := by
  have hlow : (errorStatus e w).extractLsb 3 1 = 0#3 := by
    apply BitVec.eq_of_toNat_eq
    rw [BitVec.extractLsb_toNat, errorStatus_toNat, Nat.shiftRight_eq_div_pow, BitVec.toNat_ofNat]
    omega
  have hhigh : (errorStatus e w).extractLsb 31 16 = 0#16 := by
    apply BitVec.eq_of_toNat_eq
    rw [BitVec.extractLsb_toNat, errorStatus_toNat, Nat.shiftRight_eq_div_pow, BitVec.toNat_ofNat]
    have := e.ecode_le
    omega
  simp only [statusLegal, hlow, hhigh, errFlag_errorStatus, ecodeField_errorStatus, beq_self_eq_true, Bool.true_and, if_true,
    Bool.and_eq_true, decide_eq_true_eq]
  exact ⟨e.ecode_pos, e.ecode_le⟩

theorem statusLegal_statusAfterWrite {st : Word} (v : Word) (h : statusLegal st = true) :
    statusLegal (statusAfterWrite st v) = true := by
  unfold statusAfterWrite
  split
  · exact statusLegal_zero
  · exact h

end Sys2Proof.Machine
end

