-- ==== Sys2Proof/Laws/Checks.lean ====
section
/-!
SUPPORT. The checks of the commands (R142, R144, R202): the first error of a list, when every check of a transform passes, and what a
checked command can answer.
-/

namespace Sys2Proof.Machine

/-! ## Lists of checks -/

@[simp] theorem firstError_nil : firstError [] = none := rfl

@[simp] theorem firstError_failIf (p : Prop) [Decidable p] (e : ErrCode) (l : List (Option ErrCode)) :
    firstError (failIf p e :: l) = if p then some e else firstError l := by
  unfold failIf
  split <;> rfl

/-- Everything a checked command can answer (R202, R203, R212). -/
theorem runChecked_cases (i : Instr) (l : List (Option ErrCode)) (eff : Except Fault State) (s : State) :
    (∃ e, firstError l = some e ∧ runChecked i l eff s = .next (raiseError e (encode i) s)) ∨
    (firstError l = none ∧ ∃ t, eff = .ok t ∧ runChecked i l eff s = .next t) ∨
    (firstError l = none ∧ ∃ f, eff = .error f ∧ runChecked i l eff s = .fault f) := by
  unfold runChecked
  cases h : firstError l with
  | some e => exact .inl ⟨e, rfl, rfl⟩
  | none =>
    cases eff with
    | ok t => exact .inr (.inl ⟨rfl, t, rfl, rfl⟩)
    | error f => exact .inr (.inr ⟨rfl, f, rfl, rfl⟩)

theorem runChecked_some {i : Instr} {l : List (Option ErrCode)} {e : ErrCode} (eff : Except Fault State) (s : State)
    (h : firstError l = some e) : runChecked i l eff s = .next (raiseError e (encode i) s) := by
  simp [runChecked, h]

theorem runChecked_ok {i : Instr} {l : List (Option ErrCode)} {eff : Except Fault State} {t : State} (s : State)
    (h : firstError l = none) (he : eff = .ok t) : runChecked i l eff s = .next t := by
  simp [runChecked, h, he]

theorem runChecked_error {i : Instr} {l : List (Option ErrCode)} {eff : Except Fault State} {f : Fault} (s : State)
    (h : firstError l = none) (he : eff = .error f) : runChecked i l eff s = .fault f := by
  simp [runChecked, h, he]

/-- Raising an error writes STATUS alone (R203). -/
theorem raiseError_eq (e : ErrCode) (w : Word) (s : State) : raiseError e w s = { s with status := errorStatus e w } := rfl

/-! ## The descriptors, from the registers -/

theorem srcRaster_base (s : State) : (srcRaster s).base = s.srcBase.toNat := rfl
theorem srcRaster_width (s : State) : (srcRaster s).width = s.srcWidth.toInt := rfl
theorem srcRaster_height (s : State) : (srcRaster s).height = s.srcHeight.toInt := rfl
theorem dstRaster_base (s : State) : (dstRaster s).base = s.dstBase.toNat := rfl
theorem dstRaster_width (s : State) : (dstRaster s).width = s.dstWidth.toInt := rfl
theorem dstRaster_height (s : State) : (dstRaster s).height = s.dstHeight.toInt := rfl

/-- A dimension of at least 1 is the same number read either way (R11). -/
theorem toInt_eq_toNat_of_pos {v : Word} (h : 1 ≤ v.toInt) : v.toInt = (v.toNat : Int) := by
  rw [BitVec.toInt_eq_toNat_cond] at h ⊢
  have := v.isLt
  split at h <;> split <;> omega

theorem toInt_toNat_of_pos {v : Word} (h : 1 ≤ v.toInt) : v.toInt.toNat = v.toNat := by
  rw [toInt_eq_toNat_of_pos h]; simp

theorem srcRaster_cols {s : State} (h : 1 ≤ s.srcWidth.toInt) : (srcRaster s).cols = s.srcWidth.toNat := toInt_toNat_of_pos h
theorem srcRaster_rows {s : State} (h : 1 ≤ s.srcHeight.toInt) : (srcRaster s).rows = s.srcHeight.toNat := toInt_toNat_of_pos h
theorem dstRaster_cols {s : State} (h : 1 ≤ s.dstWidth.toInt) : (dstRaster s).cols = s.dstWidth.toNat := toInt_toNat_of_pos h
theorem dstRaster_rows {s : State} (h : 1 ≤ s.dstHeight.toInt) : (dstRaster s).rows = s.dstHeight.toNat := toInt_toNat_of_pos h

/-! ## Regions as address intervals -/

/-- The SRC region as an interval of naturals, for positive dimensions (R141). -/
theorem inSrc_iff {s : State} (hw : 1 ≤ s.srcWidth.toInt) (hh : 1 ≤ s.srcHeight.toInt) (a : Nat) :
    InSrc s a ↔ s.srcBase.toNat ≤ a ∧ a < s.srcBase.toNat + s.srcWidth.toNat * s.srcHeight.toNat := by
  unfold InSrc
  rw [toInt_eq_toNat_of_pos hw, toInt_eq_toNat_of_pos hh]
  norm_cast

/-- The DST region as an interval of naturals, for positive dimensions (R141). -/
theorem inDst_iff {s : State} (hw : 1 ≤ s.dstWidth.toInt) (hh : 1 ≤ s.dstHeight.toInt) (a : Nat) :
    InDst s a ↔ s.dstBase.toNat ≤ a ∧ a < s.dstBase.toNat + s.dstWidth.toNat * s.dstHeight.toNat := by
  unfold InDst
  rw [toInt_eq_toNat_of_pos hw, toInt_eq_toNat_of_pos hh]
  norm_cast

/-- R144's test is that the regions share an address, for positive dimensions. -/
theorem alias_iff {s : State} (hsw : 1 ≤ s.srcWidth.toInt) (hsh : 1 ≤ s.srcHeight.toInt) (hdw : 1 ≤ s.dstWidth.toInt)
    (hdh : 1 ≤ s.dstHeight.toInt) :
    (((srcRaster s).base : Int) < (dstRaster s).endAddr ∧ ((dstRaster s).base : Int) < (srcRaster s).endAddr) ↔
      ∃ a, InSrc s a ∧ InDst s a := by
  have hs : 1 ≤ s.srcWidth.toInt * s.srcHeight.toInt := Int.mul_pos (by omega) (by omega)
  have hd : 1 ≤ s.dstWidth.toInt * s.dstHeight.toInt := Int.mul_pos (by omega) (by omega)
  simp only [Raster.endAddr, srcRaster_base, srcRaster_width, srcRaster_height, dstRaster_base, dstRaster_width,
    dstRaster_height, InSrc, InDst]
  constructor
  · rintro ⟨h1, h2⟩
    exact ⟨max s.srcBase.toNat s.dstBase.toNat, by omega⟩
  · rintro ⟨a, ⟨h1, h2⟩, h3, h4⟩
    omega

/-- For a transform whose first checks pass, the first error is that of its own further checks (R202). -/
theorem firstError_transform {s : State} (h : TransformReady s) (l : List (Option ErrCode)) :
    firstError (transformChecks s ++ l) = firstError l := by
  obtain ⟨⟨hsw, hsh, hs⟩, ⟨hdw, hdh, hd⟩, hdis⟩ := h
  have hal := (not_congr (alias_iff hsw hsh hdw hdh)).mpr (by simpa [RegionsDisjoint] using hdis)
  have h1 : ¬((srcRaster s).width < 1 ∨ (srcRaster s).height < 1) := by
    simp only [srcRaster_width, srcRaster_height]; omega
  have h2 : ¬((srcRaster s).endAddr > s.cfg.pmemWords) := not_lt.mpr hs
  have h3 : ¬((dstRaster s).width < 1 ∨ (dstRaster s).height < 1) := by
    simp only [dstRaster_width, dstRaster_height]; omega
  have h4 : ¬((dstRaster s).endAddr > s.cfg.pmemWords) := not_lt.mpr hd
  simp only [transformChecks, List.cons_append, List.nil_append, checkSrcDim, checkSrcRange, checkDstDim, checkDstRange,
    checkNoAlias, firstError_failIf, if_neg h1, if_neg h2, if_neg h3, if_neg h4, if_neg hal]

/-- A transform that reports no error has passed its first checks and its own. -/
theorem transformReady_of_firstError {s : State} {l : List (Option ErrCode)} (h : firstError (transformChecks s ++ l) = none) :
    TransformReady s ∧ firstError l = none := by
  simp only [transformChecks, List.cons_append, List.nil_append, checkSrcDim, checkSrcRange, checkDstDim, checkDstRange,
    checkNoAlias, firstError_failIf] at h
  split_ifs at h with h1 h2 h3 h4 h5
  simp only [srcRaster_width, srcRaster_height, dstRaster_width, dstRaster_height, Raster.endAddr, srcRaster_base,
    dstRaster_base, not_or, Int.not_lt, gt_iff_lt] at h1 h2 h3 h4
  refine ⟨⟨⟨h1.1, h1.2, h2⟩, ⟨h3.1, h3.2, h4⟩, ?_⟩, h⟩
  rw [alias_iff h1.1 h1.2 h3.1 h3.2] at h5
  simpa [RegionsDisjoint] using h5

end Sys2Proof.Machine
end

