-- ==== Sys2Proof/Laws/Memory.lean ====
section
/-!
SUPPORT. Pixel memory: read after write, the canonical form, and that two memories in canonical form with the same reads are equal.
-/

namespace Sys2Proof.Machine

@[simp] theorem Memory.read_nil (a : Nat) : Memory.read [] a = none := rfl

@[simp] theorem Memory.read_cons (b : Nat) (v : Word) (m : Memory) (a : Nat) :
    Memory.read ((b, v) :: m) a = if a = b then some v else Memory.read m a := rfl

/-- Everything a write does to the reads. -/
theorem Memory.read_write (m : Memory) (a : Nat) (v : Word) (b : Nat) :
    (m.write a v).read b = if b = a then some v else m.read b := by
  induction m with
  | nil => rfl
  | cons c m ih =>
    obtain ⟨c, w⟩ := c
    by_cases h1 : a < c
    · simp [Memory.write, h1]
    · by_cases h2 : a = c
      · subst h2
        simp only [Memory.write, lt_irrefl, if_false, if_true, Memory.read_cons]
        split <;> rfl
      · simp only [Memory.write, h1, h2, if_false, Memory.read_cons, ih]
        grind

@[simp] theorem Memory.read_write_same (m : Memory) (a : Nat) (v : Word) : (m.write a v).read a = some v := by
  simp [Memory.read_write]

theorem Memory.read_write_other (m : Memory) {a b : Nat} (v : Word) (h : b ≠ a) : (m.write a v).read b = m.read b := by
  simp [Memory.read_write, h]

/-! ## The canonical form -/

@[simp] theorem Memory.wf_nil : Memory.wf [] = true := rfl

/-- Every address of `m` is above `a`. -/
def Memory.above (a : Nat) (m : Memory) : Prop := ∀ c ∈ m, a < c.1

theorem Memory.wf_cons (a : Nat) (v : Word) (m : Memory) :
    Memory.wf ((a, v) :: m) = true ↔ Memory.above a m ∧ m.wf = true := by
  induction m generalizing a v with
  | nil => simp [Memory.wf, Memory.above]
  | cons c m ih =>
    obtain ⟨b, w⟩ := c
    have h := ih b w
    simp only [Memory.wf, Bool.and_eq_true, decide_eq_true_eq, Memory.above] at h ⊢
    constructor
    · rintro ⟨hab, hm⟩
      refine ⟨?_, hm⟩
      rintro ⟨x, y⟩ hc
      rcases List.mem_cons.mp hc with hc | hc
      · cases hc; exact hab
      · exact lt_trans hab ((h.mp hm).1 _ hc)
    · rintro ⟨ha, hm⟩
      exact ⟨ha (b, w) (List.mem_cons_self ..), hm⟩

theorem Memory.mem_write {m : Memory} {a : Nat} {v : Word} {c : Nat × Word} (h : c ∈ m.write a v) : c = (a, v) ∨ c ∈ m := by
  induction m with
  | nil => simpa [Memory.write] using h
  | cons d m ih =>
    obtain ⟨d, w⟩ := d
    simp only [Memory.write] at h
    split at h
    · simpa using h
    · split at h
      · simp only [List.mem_cons] at h ⊢
        tauto
      · simp only [List.mem_cons] at h ⊢
        rcases h with h | h
        · exact .inr (.inl h)
        · rcases ih h with h | h <;> tauto

/-- A write keeps the canonical form. -/
theorem Memory.wf_write {m : Memory} (a : Nat) (v : Word) (h : m.wf = true) : (m.write a v).wf = true := by
  induction m with
  | nil => rfl
  | cons c m ih =>
    obtain ⟨b, w⟩ := c
    have hc := (Memory.wf_cons b w m).mp h
    simp only [Memory.write]
    split
    · rename_i hab
      refine (Memory.wf_cons ..).mpr ⟨?_, h⟩
      intro d hd
      rcases List.mem_cons.mp hd with hd | hd
      · subst hd; exact hab
      · exact lt_trans hab (hc.1 _ hd)
    · split
      · rename_i hab
        subst hab
        exact (Memory.wf_cons ..).mpr hc
      · refine (Memory.wf_cons ..).mpr ⟨?_, ih hc.2⟩
        intro d hd
        rcases Memory.mem_write hd with hd | hd
        · subst hd; show b < a; omega
        · exact hc.1 _ hd

/-- A write inside PMEM keeps every listed word inside PMEM. -/
theorem Memory.inside_write {m : Memory} {n a : Nat} (v : Word) (h : m.inside n = true) (ha : a < n) :
    (m.write a v).inside n = true := by
  simp only [Memory.inside, List.all_eq_true, decide_eq_true_eq] at h ⊢
  intro c hc
  rcases Memory.mem_write hc with hc | hc
  · subst hc; exact ha
  · exact h c hc

/-- Making words Unwritten keeps the canonical form. -/
theorem Memory.wf_eraseRange {m : Memory} (lo hi : Nat) (h : m.wf = true) : (m.eraseRange lo hi).wf = true := by
  induction m with
  | nil => rfl
  | cons c m ih =>
    obtain ⟨b, w⟩ := c
    have hc := (Memory.wf_cons b w m).mp h
    have ih := ih hc.2
    simp only [Memory.eraseRange, List.filter_cons] at ih ⊢
    split
    · exact (Memory.wf_cons ..).mpr ⟨fun d hd => hc.1 d (List.mem_filter.mp hd).1, ih⟩
    · exact ih

/-- Everything erasing does to the reads. -/
theorem Memory.read_eraseRange (m : Memory) (lo hi a : Nat) :
    (m.eraseRange lo hi).read a = if lo ≤ a ∧ a < hi then none else m.read a := by
  induction m with
  | nil => simp [Memory.eraseRange]
  | cons c m ih =>
    obtain ⟨b, w⟩ := c
    simp only [Memory.eraseRange, List.filter_cons] at ih ⊢
    by_cases hb : lo ≤ b ∧ b < hi
    · simp only [hb.1, hb.2, decide_true, Bool.and_self, Bool.not_true, Bool.false_eq_true, if_false, ih, Memory.read_cons]
      grind
    · have : (!(decide (lo ≤ b) && decide (b < hi))) = true := by
        have := hb; simp; omega
      simp only [this, if_true, Memory.read_cons, ih]
      grind

theorem Memory.read_of_above {a b : Nat} {m : Memory} (h : Memory.above a m) (hb : b ≤ a) : m.read b = none := by
  induction m with
  | nil => rfl
  | cons c m ih =>
    obtain ⟨d, w⟩ := c
    have hd : a < d := h (d, w) (List.mem_cons_self ..)
    have : b ≠ d := by omega
    simpa [this] using ih fun x hx => h x (List.mem_cons_of_mem _ hx)

/-- Two memories in canonical form with the same reads are the same data. -/
theorem Memory.ext_read {m n : Memory} (hm : m.wf = true) (hn : n.wf = true) (h : ∀ a, m.read a = n.read a) : m = n := by
  induction m generalizing n with
  | nil =>
    cases n with
    | nil => rfl
    | cons c n =>
      obtain ⟨b, w⟩ := c
      simpa using h b
  | cons c m ih =>
    obtain ⟨a, v⟩ := c
    cases n with
    | nil => simpa using h a
    | cons d n =>
      obtain ⟨b, w⟩ := d
      obtain ⟨ham, hm'⟩ := (Memory.wf_cons ..).mp hm
      obtain ⟨hbn, hn'⟩ := (Memory.wf_cons ..).mp hn
      have hab : a = b := by
        by_contra hne
        rcases Nat.lt_or_gt_of_ne hne with hlt | hgt
        · have := h a
          simp [hne, Memory.read_of_above hbn hlt.le] at this
        · have := h b
          simp [Ne.symm hne, Memory.read_of_above ham hgt.le] at this
      subst hab
      have hv : v = w := by simpa using h a
      subst hv
      have : m = n := by
        refine ih hm' hn' fun x => ?_
        by_cases hx : x = a
        · subst hx
          rw [Memory.read_of_above ham le_rfl, Memory.read_of_above hbn le_rfl]
        · simpa [hx] using h x
      rw [this]

/-- Two writes at different addresses can change places. -/
theorem Memory.write_comm {m : Memory} (hm : m.wf = true) {a b : Nat} (h : a ≠ b) (v w : Word) :
    (m.write a v).write b w = (m.write b w).write a v := by
  refine Memory.ext_read (Memory.wf_write _ _ (Memory.wf_write _ _ hm)) (Memory.wf_write _ _ (Memory.wf_write _ _ hm)) fun x => ?_
  simp only [Memory.read_write]
  grind

theorem Memory.read_lt_of_inside {m : Memory} {n a : Nat} {v : Word} (h : m.inside n = true) (hr : m.read a = some v) : a < n := by
  induction m with
  | nil => simp at hr
  | cons c m ih =>
    obtain ⟨b, w⟩ := c
    simp only [Memory.inside, List.all_cons, Bool.and_eq_true, decide_eq_true_eq] at h
    simp only [Memory.read_cons] at hr
    split at hr
    · omega
    · exact ih h.2 hr

end Sys2Proof.Machine
end

