-- ==== Sys2Proof/Laws/Engine.lean ====
section
/-!
SUPPORT. The engine's accesses (R63, R75, R143): the cells of a raster and their addresses, and everything the loop over the cells of
a destination raster does.
-/

namespace Sys2Proof.Machine

/-! ## Cells and addresses -/

theorem mem_cells {h w row col : Nat} : (row, col) ∈ cells h w ↔ row < h ∧ col < w := by
  simp [cells]

theorem cells_nodup (h w : Nat) : (cells h w).Nodup := by
  unfold cells
  rw [List.nodup_flatMap]
  refine ⟨fun r _ => (List.nodup_range).map fun a b hab => by simpa using hab, ?_⟩
  refine (List.nodup_range (n := h)).imp ?_
  intro a b hab x hx hy
  simp only [List.mem_map, List.mem_range] at hx hy
  obtain ⟨c, _, rfl⟩ := hx
  obtain ⟨d, _, hd⟩ := hy
  exact hab (congrArg Prod.fst hd).symm

/-- `lin` gives different cells different indexes (R147). -/
theorem lin_injective {w row col row' col' : Nat} (hc : col < w) (hc' : col' < w) (h : lin w row col = lin w row' col') :
    row = row' ∧ col = col' := by
  unfold lin at h
  have hw : 0 < w := by omega
  have h1 := congrArg (· / w) h
  have h2 := congrArg (· % w) h
  simp only [Nat.mul_comm _ w, Nat.mul_add_div hw, Nat.div_eq_of_lt hc, Nat.div_eq_of_lt hc', Nat.mul_add_mod,
    Nat.mod_eq_of_lt hc, Nat.mod_eq_of_lt hc'] at h1 h2
  omega

/-- `lin` stays below the length of the region (R147). -/
theorem lin_lt {w h row col : Nat} (hr : row < h) (hc : col < w) : lin w row col < w * h := by
  unfold lin
  have : (row + 1) * w ≤ h * w := Nat.mul_le_mul_right w hr
  rw [Nat.add_mul, Nat.one_mul] at this
  rw [Nat.mul_comm w h]
  omega

/-- Every index below the length of the region is `lin` of a cell (R147). -/
theorem exists_lin {w h k : Nat} (hk : k < w * h) : k / w < h ∧ k % w < w ∧ lin w (k / w) (k % w) = k := by
  have hw : 0 < w := Nat.pos_of_ne_zero fun e => by simp [e] at hk
  refine ⟨Nat.div_lt_of_lt_mul hk, Nat.mod_lt k hw, ?_⟩
  unfold lin
  rw [Nat.mul_comm]
  exact Nat.div_add_mod k w

/-- The region of a raster, as word addresses (R141). -/
def Raster.Region (r : Raster) (a : Nat) : Prop := r.base ≤ a ∧ a < r.base + r.cols * r.rows

theorem Raster.addr_injective {r : Raster} {row col row' col' : Nat} (hc : col < r.cols) (hc' : col' < r.cols)
    (h : r.addr row col = r.addr row' col') : row = row' ∧ col = col' :=
  lin_injective hc hc' (Nat.add_left_cancel h)

theorem Raster.region_addr {r : Raster} {row col : Nat} (hr : row < r.rows) (hc : col < r.cols) : r.Region (r.addr row col) :=
  ⟨Nat.le_add_right .., Nat.add_lt_add_left (lin_lt hr hc) _⟩

theorem Raster.exists_addr {r : Raster} {a : Nat} (h : r.Region a) :
    ∃ row col, row < r.rows ∧ col < r.cols ∧ r.addr row col = a := by
  obtain ⟨h1, h2⟩ := h
  obtain ⟨hr, hc, hl⟩ := exists_lin (w := r.cols) (h := r.rows) (k := a - r.base) (by omega)
  exact ⟨_, _, hr, hc, by unfold Raster.addr; omega⟩

theorem srcRegion_iff {s : State} (hs : SrcFits s) (a : Nat) : (srcRaster s).Region a ↔ InSrc s a := by
  rw [inSrc_iff hs.1 hs.2.1, Raster.Region, srcRaster_cols hs.1, srcRaster_rows hs.2.1]
  rfl

theorem dstRegion_iff {s : State} (hd : DstFits s) (a : Nat) : (dstRaster s).Region a ↔ InDst s a := by
  rw [inDst_iff hd.1 hd.2.1, Raster.Region, dstRaster_cols hd.1, dstRaster_rows hd.2.1]
  rfl

theorem srcRaster_addr {s : State} (hw : 1 ≤ s.srcWidth.toInt) (row col : Nat) :
    (srcRaster s).addr row col = srcAddr s row col := by
  simp only [Raster.addr, srcRaster_cols hw, lin, srcAddr, srcRaster_base]

theorem dstRaster_addr {s : State} (hw : 1 ≤ s.dstWidth.toInt) (row col : Nat) :
    (dstRaster s).addr row col = dstAddr s row col := by
  simp only [Raster.addr, dstRaster_cols hw, lin, dstAddr, dstRaster_base]

/-- A DST that passed its check lies inside PMEM (R142). -/
theorem dst_lt_pmemWords {s : State} (hd : DstFits s) {a : Nat} (h : InDst s a) : a < s.cfg.pmemWords := by
  have := hd.2.2
  have := h.2
  omega

/-! ## The loop over the cells -/

section StoreCells

variable {dst : Raster} {cell : Memory → Nat → Nat → Except Fault (Option Word)}

/-- The loop keeps the canonical form. -/
theorem storeCells_wf {l : List (Nat × Nat)} {m m' : Memory} (h : storeCells dst cell l m = .ok m') (hm : m.wf = true) :
    m'.wf = true := by
  induction l generalizing m with
  | nil => cases h; exact hm
  | cons p l ih =>
    obtain ⟨row, col⟩ := p
    simp only [storeCells] at h
    split at h
    · cases h
    · exact ih h hm
    · exact ih h (Memory.wf_write _ _ hm)

/-- The loop keeps every listed word inside PMEM, if its cells are. -/
theorem storeCells_inside {n : Nat} {l : List (Nat × Nat)} {m m' : Memory} (h : storeCells dst cell l m = .ok m')
    (hm : m.inside n = true) (hl : ∀ p ∈ l, dst.addr p.1 p.2 < n) : m'.inside n = true := by
  induction l generalizing m with
  | nil => cases h; exact hm
  | cons p l ih =>
    obtain ⟨row, col⟩ := p
    have hl' := fun q hq => hl q (List.mem_cons_of_mem _ hq)
    simp only [storeCells] at h
    split at h
    · cases h
    · exact ih h hm hl'
    · exact ih h (Memory.inside_write _ hm (hl _ (List.mem_cons_self ..))) hl'

/-- The cells of `l` read only addresses of `src`, and none of them is stored to `src` (R63, R75): so every cell sees the memory `m₀`
that the command began with. -/
structure SeesOnly (dst : Raster) (cell : Memory → Nat → Nat → Except Fault (Option Word)) (src : Nat → Prop)
    (l : List (Nat × Nat)) (m₀ : Memory) : Prop where
  reads : ∀ m : Memory, (∀ a, src a → m.read a = m₀.read a) → ∀ p ∈ l, cell m p.1 p.2 = cell m₀ p.1 p.2
  stores : ∀ p ∈ l, ¬src (dst.addr p.1 p.2)

theorem SeesOnly.tail {src : Nat → Prop} {p : Nat × Nat} {l : List (Nat × Nat)} {m₀ : Memory}
    (h : SeesOnly dst cell src (p :: l) m₀) : SeesOnly dst cell src l m₀ :=
  ⟨fun m hm q hq => h.reads m hm q (List.mem_cons_of_mem _ hq), fun q hq => h.stores q (List.mem_cons_of_mem _ hq)⟩

/-- A store of one of the cells keeps what the cells see. -/
theorem SeesOnly.agree {src : Nat → Prop} {p : Nat × Nat} {l : List (Nat × Nat)} {m₀ m : Memory}
    (h : SeesOnly dst cell src (p :: l) m₀) (hm : ∀ a, src a → m.read a = m₀.read a) (v : Word) :
    ∀ a, src a → (m.write (dst.addr p.1 p.2) v).read a = m₀.read a := by
  intro a ha
  have hne : a ≠ dst.addr p.1 p.2 := by
    rintro rfl
    exact h.stores p (List.mem_cons_self ..) ha
  rw [Memory.read_write_other _ _ hne, hm a ha]

/-- The loop ends if every cell has a value from the memory the command began with. -/
theorem storeCells_total {src : Nat → Prop} {l : List (Nat × Nat)} {m₀ m : Memory} (hs : SeesOnly dst cell src l m₀)
    (hm : ∀ a, src a → m.read a = m₀.read a) (hv : ∀ p ∈ l, ∃ o, cell m₀ p.1 p.2 = .ok o) :
    ∃ m', storeCells dst cell l m = .ok m' := by
  induction l generalizing m with
  | nil => exact ⟨m, rfl⟩
  | cons p l ih =>
    have hv' := fun q hq => hv q (List.mem_cons_of_mem _ hq)
    have hp := hs.reads m hm p (List.mem_cons_self ..)
    obtain ⟨o, ho⟩ := hv p (List.mem_cons_self ..)
    rw [ho] at hp
    obtain ⟨row, col⟩ := p
    simp only [storeCells, hp]
    cases o with
    | none => exact ih hs.tail hm hv'
    | some v => exact ih hs.tail (hs.agree hm v) hv'

/-- A loop that stops stops at a cell that has no value in the memory the command began with. -/
theorem storeCells_error {src : Nat → Prop} {l : List (Nat × Nat)} {m₀ m : Memory} {f : Fault}
    (hs : SeesOnly dst cell src l m₀) (hm : ∀ a, src a → m.read a = m₀.read a) (h : storeCells dst cell l m = .error f) :
    ∃ p ∈ l, cell m₀ p.1 p.2 = .error f := by
  induction l generalizing m with
  | nil => cases h
  | cons p l ih =>
    have hp := hs.reads m hm p (List.mem_cons_self ..)
    obtain ⟨row, col⟩ := p
    simp only [storeCells] at h
    split at h
    · rename_i g hg
      cases h
      exact ⟨(row, col), List.mem_cons_self .., hp ▸ hg⟩
    · obtain ⟨q, hq, hqf⟩ := ih hs.tail hm h
      exact ⟨q, List.mem_cons_of_mem _ hq, hqf⟩
    · obtain ⟨q, hq, hqf⟩ := ih hs.tail (hs.agree hm _) h
      exact ⟨q, List.mem_cons_of_mem _ hq, hqf⟩

/-- Everything a loop that ends has done: every cell had a value in the memory the command began with, a cell with a word to write
holds that word, and every other address is as before (R75). -/
theorem storeCells_spec {src : Nat → Prop} {l : List (Nat × Nat)} {m₀ m m' : Memory} (hs : SeesOnly dst cell src l m₀)
    (hn : (l.map fun p => dst.addr p.1 p.2).Nodup)
    (hm : ∀ a, src a → m.read a = m₀.read a) (h : storeCells dst cell l m = .ok m') :
    (∀ p ∈ l, ∃ o, cell m₀ p.1 p.2 = .ok o) ∧
    (∀ p ∈ l, ∀ v, cell m₀ p.1 p.2 = .ok (some v) → m'.read (dst.addr p.1 p.2) = some v) ∧
    (∀ a, (∀ p ∈ l, ∀ v, cell m₀ p.1 p.2 = .ok (some v) → dst.addr p.1 p.2 ≠ a) → m'.read a = m.read a) := by
  induction l generalizing m with
  | nil => cases h; simp
  | cons p l ih =>
    have hp := hs.reads m hm p (List.mem_cons_self ..)
    rw [List.map_cons, List.nodup_cons] at hn
    have hout : ∀ q ∈ l, dst.addr q.1 q.2 ≠ dst.addr p.1 p.2 := fun q hq e =>
      hn.1 (e ▸ List.mem_map_of_mem (f := fun p : Nat × Nat => dst.addr p.1 p.2) hq)
    obtain ⟨row, col⟩ := p
    simp only [storeCells] at h
    split at h
    · cases h
    · rename_i ho
      rw [ho] at hp
      obtain ⟨h1, h2, h3⟩ := ih hs.tail hn.2 hm h
      refine ⟨?_, ?_, ?_⟩
      · intro q hq
        rcases List.mem_cons.mp hq with rfl | hq
        · exact ⟨none, hp.symm⟩
        · exact h1 q hq
      · intro q hq v hv
        rcases List.mem_cons.mp hq with rfl | hq
        · rw [← hp] at hv; cases hv
        · exact h2 q hq v hv
      · intro a ha
        exact h3 a fun q hq => ha q (List.mem_cons_of_mem _ hq)
    · rename_i v ho
      rw [ho] at hp
      obtain ⟨h1, h2, h3⟩ := ih hs.tail hn.2 (hs.agree hm v) h
      refine ⟨?_, ?_, ?_⟩
      · intro q hq
        rcases List.mem_cons.mp hq with rfl | hq
        · exact ⟨some v, hp.symm⟩
        · exact h1 q hq
      · intro q hq w hw
        rcases List.mem_cons.mp hq with rfl | hq
        · rw [← hp] at hw
          cases hw
          rw [h3 _ fun q hq v' _ => hout q hq, Memory.read_write_same]
        · exact h2 q hq w hw
      · intro a ha
        rw [h3 a fun q hq => ha q (List.mem_cons_of_mem _ hq)]
        exact Memory.read_write_other _ _ (ha _ (List.mem_cons_self ..) v hp.symm).symm

end StoreCells

/-- The addresses of the cells of a raster are all different (R75: "each DST address at most once"). -/
theorem cellAddrs_nodup {dst : Raster} {h w : Nat} (hw : w ≤ dst.cols) :
    ((cells h w).map fun p => dst.addr p.1 p.2).Nodup := by
  refine List.Nodup.map_on ?_ (cells_nodup h w)
  rintro ⟨r, c⟩ hp ⟨r', c'⟩ hq he
  have hp := (mem_cells.mp hp).2
  have hq := (mem_cells.mp hq).2
  obtain ⟨rfl, rfl⟩ := Raster.addr_injective (by omega) (by omega) he
  rfl

/-! ## The effect of a transform -/

/-- A cell of a transform reads only the SRC region, in the loop over `h` rows and `w` columns. -/
def ReadsSource (s : State) (cell : Memory → Nat → Nat → Except Fault (Option Word)) (h w : Nat) : Prop :=
  ∀ m : Memory, (∀ a, (srcRaster s).Region a → m.read a = s.pmem.read a) → ∀ row col, row < h → col < w →
    cell m row col = cell s.pmem row col

/-- In a transform that passed its checks, over a loop inside DST, the cells see the memory the command began with. -/
theorem seesOnly_of_ready {s : State} {cell : Memory → Nat → Nat → Except Fault (Option Word)} {h w : Nat}
    (hr : TransformReady s) (hc : ReadsSource s cell h w) (hh : h ≤ (dstRaster s).rows) (hw : w ≤ (dstRaster s).cols) :
    SeesOnly (dstRaster s) cell (srcRaster s).Region (cells h w) s.pmem where
  reads := fun m hm p hp => hc m hm p.1 p.2 (mem_cells.mp hp).1 (mem_cells.mp hp).2
  stores := fun p hp hs => by
    have hb := mem_cells.mp hp
    refine hr.2.2 _ ⟨(srcRegion_iff hr.1 _).mp hs, (dstRegion_iff hr.2.1 _).mp ?_⟩
    exact Raster.region_addr (by omega) (by omega)

/-- A transform's effect happens if every cell has a value, and then it is this: each cell's word at the cell's address, every
other address as before, and nothing but PMEM changed (R75). -/
theorem transformEffect_ok {s : State} {cell : Memory → Nat → Nat → Except Fault (Option Word)} {h w : Nat}
    (hr : TransformReady s) (hc : ReadsSource s cell h w) (hh : h ≤ (dstRaster s).rows) (hw : w ≤ (dstRaster s).cols)
    (hv : ∀ row col, row < h → col < w → ∃ o, cell s.pmem row col = .ok o) :
    ∃ m, transformEffect cell h w s = .ok (s.setPmem m) ∧
      (∀ row col v, row < h → col < w → cell s.pmem row col = .ok (some v) → m.read (dstAddr s row col) = some v) ∧
      (∀ a, (∀ row col v, row < h → col < w → cell s.pmem row col = .ok (some v) → dstAddr s row col ≠ a) →
        m.read a = s.pmem.read a) := by
  have hs := seesOnly_of_ready hr hc hh hw
  obtain ⟨m, hm⟩ := storeCells_total hs (fun _ _ => rfl) fun p hp => hv p.1 p.2 (mem_cells.mp hp).1 (mem_cells.mp hp).2
  obtain ⟨-, h2, h3⟩ := storeCells_spec hs (cellAddrs_nodup hw) (fun _ _ => rfl) hm
  refine ⟨m, by simp only [transformEffect, hm], ?_, ?_⟩
  · intro row col v h1 h1' hcv
    rw [← dstRaster_addr hr.2.1.1]
    exact h2 (row, col) (mem_cells.mpr ⟨h1, h1'⟩) v hcv
  · intro a ha
    refine h3 a fun p hp v hpv => ?_
    rw [dstRaster_addr hr.2.1.1]
    exact ha p.1 p.2 v (mem_cells.mp hp).1 (mem_cells.mp hp).2 hpv

/-- Conversely, everything a transform's effect has done when it answers a state. -/
theorem transformEffect_spec {s t : State} {cell : Memory → Nat → Nat → Except Fault (Option Word)} {h w : Nat}
    (hr : TransformReady s) (hc : ReadsSource s cell h w) (hh : h ≤ (dstRaster s).rows) (hw : w ≤ (dstRaster s).cols)
    (he : transformEffect cell h w s = .ok t) :
    ∃ m, t = s.setPmem m ∧ (s.pmem.wf = true → m.wf = true) ∧
      (s.pmem.inside s.cfg.pmemWords = true → m.inside s.cfg.pmemWords = true) ∧
      (∀ row col, row < h → col < w → ∃ o, cell s.pmem row col = .ok o) ∧
      (∀ row col v, row < h → col < w → cell s.pmem row col = .ok (some v) → m.read (dstAddr s row col) = some v) ∧
      (∀ a, (∀ row col v, row < h → col < w → cell s.pmem row col = .ok (some v) → dstAddr s row col ≠ a) →
        m.read a = s.pmem.read a) := by
  have hs := seesOnly_of_ready hr hc hh hw
  simp only [transformEffect] at he
  split at he
  · rename_i m hm
    cases he
    obtain ⟨h1, h2, h3⟩ := storeCells_spec hs (cellAddrs_nodup hw) (fun _ _ => rfl) hm
    refine ⟨m, rfl, storeCells_wf hm, fun hi => storeCells_inside hm hi ?_, ?_, ?_, ?_⟩
    · intro p hp
      have hb := mem_cells.mp hp
      exact dst_lt_pmemWords hr.2.1 ((dstRegion_iff hr.2.1 _).mp (Raster.region_addr (by omega) (by omega)))
    · intro row col hrow hcol
      exact h1 (row, col) (mem_cells.mpr ⟨hrow, hcol⟩)
    · intro row col v hrow hcol hcv
      rw [← dstRaster_addr hr.2.1.1]
      exact h2 (row, col) (mem_cells.mpr ⟨hrow, hcol⟩) v hcv
    · intro a ha
      refine h3 a fun p hp v hpv => ?_
      rw [dstRaster_addr hr.2.1.1]
      exact ha p.1 p.2 v (mem_cells.mp hp).1 (mem_cells.mp hp).2 hpv
  · cases he

/-- A transform's effect that ends in a model fault has a cell with that fault. -/
theorem transformEffect_error {s : State} {cell : Memory → Nat → Nat → Except Fault (Option Word)} {h w : Nat} {f : Fault}
    (hr : TransformReady s) (hc : ReadsSource s cell h w) (hh : h ≤ (dstRaster s).rows) (hw : w ≤ (dstRaster s).cols)
    (he : transformEffect cell h w s = .error f) :
    ∃ row col, row < h ∧ col < w ∧ cell s.pmem row col = .error f := by
  have hs := seesOnly_of_ready hr hc hh hw
  simp only [transformEffect] at he
  split at he
  · cases he
  · rename_i g hg
    cases he
    obtain ⟨p, hp, hpf⟩ := storeCells_error hs (fun _ _ => rfl) hg
    exact ⟨p.1, p.2, (mem_cells.mp hp).1, (mem_cells.mp hp).2, hpf⟩

end Sys2Proof.Machine
end

