-- ==== Sys2Proof/Laws/Pixel.lean ====
section
/-!
SUPPORT. Pixels as numbers: the channels of a word, packing, the averaging helper and the rotation (R120 to R123, R170, R172).
-/

namespace Sys2Proof.Machine

theorem chR_eq (p : Word) : chR p = p.toNat / 16777216 := by
  simp only [chR, BitVec.extractLsb_toNat, Nat.shiftRight_eq_div_pow]
  have := p.isLt
  omega

theorem chG_eq (p : Word) : chG p = p.toNat / 65536 % 256 := by
  simp only [chG, BitVec.extractLsb_toNat, Nat.shiftRight_eq_div_pow]

theorem chB_eq (p : Word) : chB p = p.toNat / 256 % 256 := by
  simp only [chB, BitVec.extractLsb_toNat, Nat.shiftRight_eq_div_pow]

theorem chA_eq (p : Word) : chA p = p.toNat % 256 := by
  simp only [chA, BitVec.extractLsb_toNat, Nat.shiftRight_eq_div_pow]
  omega

theorem channelOperand_eq (v : Word) : channelOperand v = v.toNat % 256 := chA_eq v

theorem chR_lt (p : Word) : chR p < 256 := by rw [chR_eq]; have := p.isLt; omega
theorem chG_lt (p : Word) : chG p < 256 := by rw [chG_eq]; omega
theorem chB_lt (p : Word) : chB p < 256 := by rw [chB_eq]; omega
theorem chA_lt (p : Word) : chA p < 256 := by rw [chA_eq]; omega

theorem toNat_append8 {n : Nat} (x : BitVec n) (y : BitVec 8) : (x ++ y).toNat = x.toNat * 256 + y.toNat := by
  rw [BitVec.toNat_append, ← Nat.shiftLeft_add_eq_or_of_lt y.isLt, Nat.shiftLeft_eq]

/-- A packed pixel as a number (R120). -/
theorem pack_toNat (r g b a : Nat) :
    (pack r g b a).toNat = r % 256 * 16777216 + g % 256 * 65536 + b % 256 * 256 + a % 256 := by
  have h : (pack r g b a).toNat =
      ((BitVec.ofNat 8 r ++ BitVec.ofNat 8 g) ++ BitVec.ofNat 8 b ++ BitVec.ofNat 8 a).toNat := rfl
  rw [h, toNat_append8, toNat_append8, toNat_append8]
  simp only [BitVec.toNat_ofNat]
  omega

@[simp] theorem chR_pack (r g b a : Nat) : chR (pack r g b a) = r % 256 := by rw [chR_eq, pack_toNat]; omega
@[simp] theorem chG_pack (r g b a : Nat) : chG (pack r g b a) = g % 256 := by rw [chG_eq, pack_toNat]; omega
@[simp] theorem chB_pack (r g b a : Nat) : chB (pack r g b a) = b % 256 := by rw [chB_eq, pack_toNat]; omega
@[simp] theorem chA_pack (r g b a : Nat) : chA (pack r g b a) = a % 256 := by rw [chA_eq, pack_toNat]; omega

/-- Pixels with the same four channels are the same word. -/
theorem pixel_ext {p q : Word} (hr : chR p = chR q) (hg : chG p = chG q) (hb : chB p = chB q) (ha : chA p = chA q) :
    p = q := by
  apply BitVec.eq_of_toNat_eq
  have hp := p.isLt
  have hq := q.isLt
  rw [chR_eq, chR_eq] at hr
  rw [chG_eq, chG_eq] at hg
  rw [chB_eq, chB_eq] at hb
  rw [chA_eq, chA_eq] at ha
  omega

theorem pack_channels (p : Word) : pack (chR p) (chG p) (chB p) (chA p) = p :=
  pixel_ext (by simp [Nat.mod_eq_of_lt (chR_lt p)]) (by simp [Nat.mod_eq_of_lt (chG_lt p)])
    (by simp [Nat.mod_eq_of_lt (chB_lt p)]) (by simp [Nat.mod_eq_of_lt (chA_lt p)])

/-! ## The averaging helper -/

theorem channelSum_le {ch : Word → Nat} (h : ∀ p, ch p < 256) (l : List Word) : channelSum ch l ≤ l.length * 255 := by
  induction l with
  | nil => simp [channelSum]
  | cons p l ih =>
    have := h p
    simp only [channelSum, List.map_cons, List.sum_cons, List.length_cons] at ih ⊢
    omega

/-- A lane's mean is a channel value, so `pack` never masks in `avg` (R123). -/
theorem channelMean_lt {ch : Word → Nat} (h : ∀ p, ch p < 256) (l : List Word) : channelSum ch l / l.length < 256 := by
  rcases Nat.eq_zero_or_pos l.length with h0 | h0
  · simp [h0]
  · have := channelSum_le h l
    exact (Nat.div_lt_iff_lt_mul h0).mpr (by omega)

@[simp] theorem avg_nil : avg [] = .error .avgEmpty := rfl

/-- `avg` of a non-empty list, lane by lane. -/
theorem avg_spec {l : List Word} (h : l ≠ []) : ∃ q, avg l = .ok q ∧
    chR q = channelSum chR l / l.length ∧ chG q = channelSum chG l / l.length ∧
    chB q = channelSum chB l / l.length ∧ chA q = channelSum chA l / l.length := by
  have h0 : l.length ≠ 0 := by simpa using h
  refine ⟨_, if_neg h0, ?_⟩
  simp only [chR_pack, chG_pack, chB_pack, chA_pack]
  exact ⟨Nat.mod_eq_of_lt (channelMean_lt chR_lt l), Nat.mod_eq_of_lt (channelMean_lt chG_lt l),
    Nat.mod_eq_of_lt (channelMean_lt chB_lt l), Nat.mod_eq_of_lt (channelMean_lt chA_lt l)⟩

theorem channelSum_replicate (ch : Word → Nat) (n : Nat) (p : Word) : channelSum ch (List.replicate n p) = n * ch p := by
  simp [channelSum]

/-- The mean of copies of one pixel is that pixel (R192). -/
theorem avg_replicate {n : Nat} (h : n ≠ 0) (p : Word) : avg (List.replicate n p) = .ok p := by
  have hp : 0 < n := Nat.pos_of_ne_zero h
  simp only [avg, List.length_replicate, h, if_false, channelSum_replicate, Nat.mul_div_cancel_left _ hp, pack_channels]

/-! ## The rotation -/

@[simp] theorem chR_rot (p : Word) : chR (rot p) = chB p := by simp [rot, Nat.mod_eq_of_lt (chB_lt p)]
@[simp] theorem chG_rot (p : Word) : chG (rot p) = chR p := by simp [rot, Nat.mod_eq_of_lt (chR_lt p)]
@[simp] theorem chB_rot (p : Word) : chB (rot p) = chG p := by simp [rot, Nat.mod_eq_of_lt (chG_lt p)]
@[simp] theorem chA_rot (p : Word) : chA (rot p) = chA p := by simp [rot, Nat.mod_eq_of_lt (chA_lt p)]

end Sys2Proof.Machine
end

