-- ==== Sys2Proof/Laws/Cells.lean ====
section
/-!
SUPPORT. One destination cell of each transform: what it reads, its value, and when it has none (R160, R170, R180, R181, R190).
-/

namespace Sys2Proof.Machine

/-! ## Reading source pixels -/

theorem sourcePixel_eq_ok {src : Raster} {m : Memory} {row col : Nat} {v : Word} :
    sourcePixel src m row col = .ok v ↔ m.read (src.addr row col) = some v := by
  unfold sourcePixel engineRead
  cases m.read (src.addr row col) <;> simp

theorem sourcePixel_eq_error {src : Raster} {m : Memory} {row col : Nat} {f : Fault} :
    sourcePixel src m row col = .error f ↔ m.read (src.addr row col) = none ∧ f = .unwrittenRead := by
  unfold sourcePixel engineRead
  cases m.read (src.addr row col) <;> simp [eq_comm]

/-- A source pixel inside the bounds depends on the SRC region alone. -/
theorem sourcePixel_congr {src : Raster} {m n : Memory} (h : ∀ a, src.Region a → m.read a = n.read a) {row col : Nat}
    (hr : row < src.rows) (hc : col < src.cols) : sourcePixel src m row col = sourcePixel src n row col := by
  unfold sourcePixel engineRead
  rw [h _ (Raster.region_addr hr hc)]

/-- A Written source pixel, from the registers. -/
theorem sourcePixel_srcPixel {s : State} (hs : SrcFits s) {row col : Nat} {v : Word}
    (h : s.pmem.read (srcAddr s row col) = some v) :
    sourcePixel (srcRaster s) s.pmem row col = .ok (srcPixel s row col) := by
  rw [sourcePixel_eq_ok, srcRaster_addr hs.1, srcPixel, h]
  rfl

/-- Every pixel of a Written SRC is read. -/
theorem sourcePixel_of_written {s : State} (hs : SrcFits s) (hw : SrcWritten s) {row col : Nat}
    (hr : row < (srcRaster s).rows) (hc : col < (srcRaster s).cols) :
    sourcePixel (srcRaster s) s.pmem row col = .ok (srcPixel s row col) := by
  obtain ⟨v, hv⟩ := hw _ ((srcRegion_iff hs _).mp (Raster.region_addr hr hc))
  exact sourcePixel_srcPixel hs (by rwa [← srcRaster_addr hs.1])

@[simp] theorem written_ok (v : Word) : written (.ok v) = .ok (some v) := rfl
@[simp] theorem written_error (f : Fault) : written (.error f) = .error f := rfl

theorem written_eq_ok {e : Except Fault Word} {o : Option Word} : written e = .ok o ↔ ∃ v, e = .ok v ∧ o = some v := by
  cases e <;> simp [eq_comm]

theorem written_eq_error {e : Except Fault Word} {f : Fault} : written e = .error f ↔ e = .error f := by
  cases e <;> simp

/-! ## Gathering a list of pixels -/

theorem gather_congr {p q : Nat → Nat → Except Fault Word} {l : List (Nat × Nat)} (h : ∀ c ∈ l, p c.1 c.2 = q c.1 c.2) :
    gather p l = gather q l := by
  induction l with
  | nil => rfl
  | cons c l ih =>
    obtain ⟨row, col⟩ := c
    simp only [gather, h (row, col) (List.mem_cons_self ..), ih fun d hd => h d (List.mem_cons_of_mem _ hd)]

/-- Gathering pixels that are all read gives them in order. -/
theorem gather_ok {p : Nat → Nat → Except Fault Word} {g : Nat → Nat → Word} {l : List (Nat × Nat)}
    (h : ∀ c ∈ l, p c.1 c.2 = .ok (g c.1 c.2)) : gather p l = .ok (l.map fun c => g c.1 c.2) := by
  induction l with
  | nil => rfl
  | cons c l ih =>
    have hc := h c (List.mem_cons_self ..)
    obtain ⟨row, col⟩ := c
    simp only [gather, hc, ih fun d hd => h d (List.mem_cons_of_mem _ hd), List.map_cons]

theorem gather_length {p : Nat → Nat → Except Fault Word} {l : List (Nat × Nat)} {ps : List Word} (h : gather p l = .ok ps) :
    ps.length = l.length := by
  induction l generalizing ps with
  | nil => cases h; rfl
  | cons c l ih =>
    obtain ⟨row, col⟩ := c
    simp only [gather] at h
    split at h
    · cases h
    · split at h
      · cases h
      · rename_i qs hq
        cases h
        simp [ih hq]

/-- Gathering stops only at a pixel that stops. -/
theorem gather_error {p : Nat → Nat → Except Fault Word} {l : List (Nat × Nat)} {f : Fault} (h : gather p l = .error f) :
    ∃ c ∈ l, p c.1 c.2 = .error f := by
  induction l with
  | nil => cases h
  | cons c l ih =>
    obtain ⟨row, col⟩ := c
    simp only [gather] at h
    split at h
    · rename_i g hg
      cases h
      exact ⟨(row, col), List.mem_cons_self .., hg⟩
    · split at h
      · rename_i g hg
        cases h
        obtain ⟨d, hd, hdf⟩ := ih hg
        exact ⟨d, List.mem_cons_of_mem _ hd, hdf⟩
      · cases h

/-- The mean of a gathered list without repeats is the mean over the set of its cells. -/
theorem channelSum_gathered (ch : Word → Nat) (g : Nat → Nat → Word) {l : List (Nat × Nat)} (h : l.Nodup) :
    channelSum ch (l.map fun c => g c.1 c.2) = ∑ c ∈ l.toFinset, ch (g c.1 c.2) := by
  rw [channelSum, List.map_map, ← List.sum_toFinset _ h]
  rfl

/-! ## SQUASH -/

theorem squashCell_readsSource (s : State) (xf yf : Nat) (fill : OobFill) (h w : Nat) :
    ReadsSource s (squashCell (srcRaster s) xf yf fill) h w := by
  intro m hm row col _ _
  unfold squashCell
  split
  · rename_i hb
    rw [sourcePixel_congr hm hb.1 hb.2]
  · rfl

theorem squashCell_error {src : Raster} {xf yf : Nat} {fill : OobFill} {m : Memory} {row col : Nat} {f : Fault}
    (h : squashCell src xf yf fill m row col = .error f) :
    row * yf < src.rows ∧ col * xf < src.cols ∧ m.read (src.addr (row * yf) (col * xf)) = none ∧ f = .unwrittenRead := by
  unfold squashCell at h
  split at h
  · rename_i hb
    have h := sourcePixel_eq_error.mp (written_eq_error.mp h)
    exact ⟨hb.1, hb.2, h⟩
  · cases h

/-! ## COLOR_ROTATE -/

theorem rotateCell_readsSource (s : State) : ReadsSource s (rotateCell (srcRaster s)) (srcRaster s).rows (srcRaster s).cols := by
  intro m hm row col hr hc
  unfold rotateCell
  rw [sourcePixel_congr hm hr hc]

theorem rotateCell_ok {src : Raster} {m : Memory} {row col : Nat} {p : Word} (h : sourcePixel src m row col = .ok p) :
    rotateCell src m row col = .ok (some (rot p)) := by
  simp [rotateCell, h]

theorem rotateCell_error {src : Raster} {m : Memory} {row col : Nat} {f : Fault} (h : rotateCell src m row col = .error f) :
    m.read (src.addr row col) = none ∧ f = .unwrittenRead := by
  unfold rotateCell at h
  have h := written_eq_error.mp h
  split at h
  · cases h
  · rename_i hg
    cases h
    exact sourcePixel_eq_error.mp hg

/-! ## BLUR -/

theorem mem_upTo {lo hi x : Nat} : x ∈ upTo lo hi ↔ lo ≤ x ∧ x ≤ hi := by
  simp only [upTo, List.mem_range'_1]
  omega

theorem mem_windowCells {sh sw d row col r c : Nat} : (r, c) ∈ windowCells sh sw d row col ↔
    (row - d ≤ r ∧ r ≤ min (sh - 1) (row + d)) ∧ (col - d ≤ c ∧ c ≤ min (sw - 1) (col + d)) := by
  simp [windowCells, mem_upTo]

theorem windowCells_inside {sh sw d row col : Nat} (hr : row < sh) (hc : col < sw) {c : Nat × Nat}
    (h : c ∈ windowCells sh sw d row col) : c.1 < sh ∧ c.2 < sw := by
  have := mem_windowCells.mp (show (c.1, c.2) ∈ _ from h)
  omega

theorem windowCells_centre {sh sw d row col : Nat} (hr : row < sh) (hc : col < sw) : (row, col) ∈ windowCells sh sw d row col := by
  rw [mem_windowCells]
  omega

theorem upTo_nodup (lo hi : Nat) : (upTo lo hi).Nodup := List.nodup_range'

theorem windowCells_nodup (sh sw d row col : Nat) : (windowCells sh sw d row col).Nodup := by
  unfold windowCells
  rw [List.nodup_flatMap]
  refine ⟨fun r _ => (upTo_nodup ..).map fun a b hab => by simpa using hab, ?_⟩
  refine (upTo_nodup _ _).imp ?_
  intro a b hab x hx hy
  simp only [List.mem_map] at hx hy
  obtain ⟨c, _, rfl⟩ := hx
  obtain ⟨e, _, he⟩ := hy
  exact hab (congrArg Prod.fst he).symm

/-- BLUR's clamped ranges are the pixels in bounds within distance `d` of the centre (R180). -/
theorem windowCells_toFinset {s : State} (hs : SrcFits s) {row col : Nat} (d : Nat) (hr : row < (srcRaster s).rows)
    (hc : col < (srcRaster s).cols) :
    (windowCells (srcRaster s).rows (srcRaster s).cols d row col).toFinset = blurWindow s d row col := by
  rw [srcRaster_rows hs.2.1, srcRaster_cols hs.1] at *
  ext ⟨r, c⟩
  simp only [List.mem_toFinset, mem_windowCells, blurWindow, Finset.mem_filter, Finset.mem_product, Finset.mem_range, abs_le]
  omega

theorem blurCell_readsSource (s : State) (d : Nat) :
    ReadsSource s (blurCell (srcRaster s) d) (srcRaster s).rows (srcRaster s).cols := by
  intro m hm row col hr hc
  have hg : gather (sourcePixel (srcRaster s) m) (windowCells (srcRaster s).rows (srcRaster s).cols d row col) =
      gather (sourcePixel (srcRaster s) s.pmem) (windowCells (srcRaster s).rows (srcRaster s).cols d row col) :=
    gather_congr fun c hc' =>
      sourcePixel_congr hm (windowCells_inside hr hc hc').1 (windowCells_inside hr hc hc').2
  unfold blurCell blurPixel
  rw [hg, sourcePixel_congr hm hr hc]

/-- BLUR's value of a cell (R181), when every pixel of its window is read. -/
theorem blurCell_ok {src : Raster} {d : Nat} {m : Memory} {row col : Nat} {g : Nat → Nat → Word}
    (hr : row < src.rows) (hc : col < src.cols)
    (h : ∀ r c, r < src.rows → c < src.cols → sourcePixel src m r c = .ok (g r c)) :
    ∃ q, blurCell src d m row col = .ok (some q) ∧
      (∀ ch ∈ [chR, chG, chB], ch q = (∑ c ∈ (windowCells src.rows src.cols d row col).toFinset, ch (g c.1 c.2)) /
        (windowCells src.rows src.cols d row col).toFinset.card) ∧
      chA q = chA (g row col) := by
  have hn := windowCells_nodup src.rows src.cols d row col
  have hg := gather_ok (p := sourcePixel src m) (g := g) (l := windowCells src.rows src.cols d row col)
    fun c hc' => h c.1 c.2 (windowCells_inside hr hc hc').1 (windowCells_inside hr hc hc').2
  have hne : (windowCells src.rows src.cols d row col).map (fun c => g c.1 c.2) ≠ [] := by
    intro e
    have := windowCells_centre (d := d) hr hc
    simp [List.map_eq_nil_iff.mp e] at this
  obtain ⟨q, hq, hR, hG, hB, -⟩ := avg_spec hne
  rw [channelSum_gathered _ _ hn, List.length_map, ← List.toFinset_card_of_nodup hn] at hR hG hB
  refine ⟨pack (chR q) (chG q) (chB q) (chA (g row col)), ?_, ?_, ?_⟩
  · simp only [blurCell, blurPixel, hg, hq, h row col hr hc, written_ok]
  · simp only [List.forall_mem_cons, chR_pack, chG_pack, chB_pack, Nat.mod_eq_of_lt (chR_lt q), Nat.mod_eq_of_lt (chG_lt q),
      Nat.mod_eq_of_lt (chB_lt q)]
    exact ⟨hR, hG, hB, by simp⟩
  · simp [Nat.mod_eq_of_lt (chA_lt _)]

/-- A cell of BLUR stops only at an Unwritten pixel inside the SRC bounds. -/
theorem blurCell_error {src : Raster} {d : Nat} {m : Memory} {row col : Nat} {f : Fault} (hr : row < src.rows) (hc : col < src.cols)
    (h : blurCell src d m row col = .error f) :
    ∃ r c, r < src.rows ∧ c < src.cols ∧ m.read (src.addr r c) = none ∧ f = .unwrittenRead := by
  have h := written_eq_error.mp h
  unfold blurPixel at h
  split at h
  · rename_i hg
    cases h
    obtain ⟨c, hcm, hcf⟩ := gather_error hg
    have hb := windowCells_inside hr hc hcm
    exact ⟨c.1, c.2, hb.1, hb.2, sourcePixel_eq_error.mp hcf⟩
  · rename_i ps hg
    have hne : ps ≠ [] := by
      intro e
      have h1 := gather_length hg
      have h2 := List.length_pos_of_mem (windowCells_centre (d := d) hr hc)
      simp [e] at h1
      omega
    obtain ⟨q, hq, -⟩ := avg_spec hne
    rw [hq] at h
    simp only at h
    split at h
    · rename_i hg
      cases h
      exact ⟨row, col, hr, hc, sourcePixel_eq_error.mp hg⟩
    · cases h

/-! ## EXPAND -/

theorem mem_candidates {sh sw i j r c : Nat} (hi : i / 2 < sh) (hj : j / 2 < sw) : (r, c) ∈ candidates sh sw i j ↔
    (r < sh ∧ c < sw) ∧ (r = i / 2 ∨ i % 2 = 1 ∧ r = i / 2 + 1) ∧ (c = j / 2 ∨ j % 2 = 1 ∧ c = j / 2 + 1) := by
  unfold candidates
  split_ifs <;> simp <;> omega

theorem candidates_nodup (sh sw i j : Nat) : (candidates sh sw i j).Nodup := by
  unfold candidates
  split_ifs <;> simp

theorem candidates_ne_nil (sh sw i j : Nat) : candidates sh sw i j ≠ [] := by simp [candidates]

/-- EXPAND's candidates are the set of the parity table (R190). -/
theorem candidates_toFinset {s : State} (hs : SrcFits s) {i j : Nat} (hi : i / 2 < (srcRaster s).rows)
    (hj : j / 2 < (srcRaster s).cols) :
    (candidates (srcRaster s).rows (srcRaster s).cols i j).toFinset = expandWindow s i j := by
  ext ⟨r, c⟩
  rw [List.mem_toFinset, mem_candidates hi hj, srcRaster_rows hs.2.1, srcRaster_cols hs.1]
  simp [expandWindow]

theorem expandCell_readsSource {s : State} {h w : Nat} (hh : h ≤ 2 * (srcRaster s).rows) (hw : w ≤ 2 * (srcRaster s).cols) :
    ReadsSource s (expandCell (srcRaster s)) h w := by
  intro m hm i j hi hj
  have hi' : i / 2 < (srcRaster s).rows := by omega
  have hj' : j / 2 < (srcRaster s).cols := by omega
  have hg : gather (sourcePixel (srcRaster s) m) (candidates (srcRaster s).rows (srcRaster s).cols i j) =
      gather (sourcePixel (srcRaster s) s.pmem) (candidates (srcRaster s).rows (srcRaster s).cols i j) :=
    gather_congr fun c hc =>
      sourcePixel_congr hm ((mem_candidates hi' hj').mp hc).1.1 ((mem_candidates hi' hj').mp hc).1.2
  unfold expandCell expandPixel
  rw [hg, sourcePixel_congr hm hi' hj']

/-- EXPAND's value of a cell (R190), when every candidate is read: all four lanes are means over the candidates, and where both
coordinates are even there is one candidate, the exact copy. -/
theorem expandCell_ok {src : Raster} {m : Memory} {i j : Nat} {g : Nat → Nat → Word}
    (hi : i / 2 < src.rows) (hj : j / 2 < src.cols)
    (h : ∀ r c, r < src.rows → c < src.cols → sourcePixel src m r c = .ok (g r c)) :
    ∃ q, expandCell src m i j = .ok (some q) ∧
      ∀ ch ∈ [chR, chG, chB, chA], ch q = (∑ c ∈ (candidates src.rows src.cols i j).toFinset, ch (g c.1 c.2)) /
        (candidates src.rows src.cols i j).toFinset.card := by
  by_cases he : i % 2 = 0 ∧ j % 2 = 0
  · refine ⟨g (i / 2) (j / 2), ?_, ?_⟩
    · simp only [expandCell, expandPixel, he, and_self, if_true, h _ _ hi hj, written_ok]
    · simp [candidates, he]
  · have hn := candidates_nodup src.rows src.cols i j
    have hg := gather_ok (p := sourcePixel src m) (g := g) (l := candidates src.rows src.cols i j)
      fun c hc => h c.1 c.2 ((mem_candidates hi hj).mp hc).1.1 ((mem_candidates hi hj).mp hc).1.2
    have hne : (candidates src.rows src.cols i j).map (fun c => g c.1 c.2) ≠ [] := by
      simp [candidates_ne_nil]
    obtain ⟨q, hq, hR, hG, hB, hA⟩ := avg_spec hne
    rw [channelSum_gathered _ _ hn, List.length_map, ← List.toFinset_card_of_nodup hn] at hR hG hB hA
    refine ⟨q, ?_, ?_⟩
    · simp only [expandCell, expandPixel, he, if_false, hg, hq, written_ok]
    · simp [hR, hG, hB, hA]

/-- A cell of EXPAND stops only at an Unwritten pixel inside the SRC bounds. -/
theorem expandCell_error {src : Raster} {m : Memory} {i j : Nat} {f : Fault} (hi : i / 2 < src.rows) (hj : j / 2 < src.cols)
    (h : expandCell src m i j = .error f) :
    ∃ r c, r < src.rows ∧ c < src.cols ∧ m.read (src.addr r c) = none ∧ f = .unwrittenRead := by
  have h := written_eq_error.mp h
  unfold expandPixel at h
  split at h
  · exact ⟨_, _, hi, hj, sourcePixel_eq_error.mp h⟩
  · split at h
    · rename_i hg
      cases h
      obtain ⟨c, hcm, hcf⟩ := gather_error hg
      have hb := (mem_candidates hi hj).mp (show (c.1, c.2) ∈ _ from hcm)
      exact ⟨c.1, c.2, hb.1.1, hb.1.2, sourcePixel_eq_error.mp hcf⟩
    · rename_i ps hg
      have hne : ps ≠ [] := by
        intro e
        have := gather_length hg
        simp [e, candidates] at this
      obtain ⟨q, hq, -⟩ := avg_spec hne
      rw [hq] at h
      cases h

end Sys2Proof.Machine
end

