-- ==== Sys2Proof/Laws/Commands.lean ====
section
/-!
SUPPORT. What a command can do, said once: every command is its list of checks and its effect, and `exec_outcomes` lists all its
outcomes. Later proofs cite these and do not unfold a meaning.
-/

namespace Sys2Proof.Machine

/-- The checks of a command, in order (R202). -/
def checksOf (i : Instr) (s : State) : List (Option ErrCode) :=
  match i with
  | .makePixel => []
  | .getRed => []
  | .getGreen => []
  | .getBlue => []
  | .getAlpha => []
  | .index => checkSrc s ++ [checkIndexBounds s]
  | .squash => transformChecks s ++ [checkFactors s]
  | .colorRotate => transformChecks s ++ [checkSameSize s]
  | .blur => transformChecks s ++ [checkSameSize s, checkDistance s]
  | .expand => transformChecks s ++ [checkDoubleSize s]

/-- The word a command without a DST region writes to RESULT. -/
def resultOf (i : Instr) (s : State) : Word :=
  match i with
  | .makePixel => pack (channelOperand s.arg0) (channelOperand s.arg1) (channelOperand s.arg2) (channelOperand s.arg3)
  | .getRed => zext32 (chR s.arg0)
  | .getGreen => zext32 (chG s.arg0)
  | .getBlue => zext32 (chB s.arg0)
  | .getAlpha => zext32 (chA s.arg0)
  | .index => zext32 (lin (srcRaster s).cols (sint s.arg0).toNat (sint s.arg1).toNat)
  | .squash => s.result
  | .colorRotate => s.result
  | .blur => s.result
  | .expand => s.result

/-- The cell function of a transform. -/
def cellOf (i : Instr) (s : State) : Memory → Nat → Nat → Except Fault (Option Word) :=
  match i with
  | .squash => squashCell (srcRaster s) (sint s.arg0).toNat (sint s.arg1).toNat s.cfg.squashOobFill
  | .colorRotate => rotateCell (srcRaster s)
  | .blur => blurCell (srcRaster s) (sint s.arg0).toNat
  | .expand => expandCell (srcRaster s)
  | .makePixel => fun _ _ _ => .ok none
  | .getRed => fun _ _ _ => .ok none
  | .getGreen => fun _ _ _ => .ok none
  | .getBlue => fun _ _ _ => .ok none
  | .getAlpha => fun _ _ _ => .ok none
  | .index => fun _ _ _ => .ok none

/-- The loop bounds of a transform, rows and columns: SRC's for COLOR_ROTATE and BLUR, DST's for SQUASH and EXPAND, as their rules
write them. -/
def boundsOf (i : Instr) (s : State) : Nat × Nat :=
  match i with
  | .colorRotate => ((srcRaster s).rows, (srcRaster s).cols)
  | .blur => ((srcRaster s).rows, (srcRaster s).cols)
  | .squash => ((dstRaster s).rows, (dstRaster s).cols)
  | .expand => ((dstRaster s).rows, (dstRaster s).cols)
  | .makePixel => (0, 0)
  | .getRed => (0, 0)
  | .getGreen => (0, 0)
  | .getBlue => (0, 0)
  | .getAlpha => (0, 0)
  | .index => (0, 0)

/-- Every command is its checks and its effect. -/
theorem exec_eq (i : Instr) (s : State) : exec i s =
    runChecked i (checksOf i s)
      (if isTransform i then transformEffect (cellOf i s) (boundsOf i s).1 (boundsOf i s).2 s else .ok (s.setResult (resultOf i s)))
      s := by
  cases i <;> rfl

/-! ## What a transform has when its checks pass -/

theorem checkSameSize_none {s : State} {l : List (Option ErrCode)} (h : firstError (checkSameSize s :: l) = none) :
    s.dstWidth.toInt = s.srcWidth.toInt ∧ s.dstHeight.toInt = s.srcHeight.toInt ∧ firstError l = none := by
  simp only [checkSameSize, firstError_failIf] at h
  split_ifs at h with hd
  have hd := not_or.mp hd
  exact ⟨not_not.mp hd.1, not_not.mp hd.2, h⟩

theorem checkDoubleSize_none {s : State} {l : List (Option ErrCode)} (h : firstError (checkDoubleSize s :: l) = none) :
    s.dstWidth.toInt = 2 * s.srcWidth.toInt ∧ s.dstHeight.toInt = 2 * s.srcHeight.toInt ∧ firstError l = none := by
  simp only [checkDoubleSize, firstError_failIf] at h
  split_ifs at h with hd
  have hd := not_or.mp hd
  exact ⟨not_not.mp hd.1, not_not.mp hd.2, h⟩

/-- A transform whose checks pass is ready, loops over exactly the rows and columns of DST, and its cells read SRC alone. -/
theorem transform_passed {i : Instr} {s : State} (ht : isTransform i = true) (h : firstError (checksOf i s) = none) :
    TransformReady s ∧ boundsOf i s = ((dstRaster s).rows, (dstRaster s).cols) ∧
      ReadsSource s (cellOf i s) (boundsOf i s).1 (boundsOf i s).2 := by
  cases i with
  | makePixel => cases ht
  | getRed => cases ht
  | getGreen => cases ht
  | getBlue => cases ht
  | getAlpha => cases ht
  | index => cases ht
  | squash => exact ⟨(transformReady_of_firstError h).1, rfl, squashCell_readsSource s _ _ _ _ _⟩
  | colorRotate =>
    obtain ⟨hr, hl⟩ := transformReady_of_firstError h
    obtain ⟨h1, h2, -⟩ := checkSameSize_none hl
    refine ⟨hr, ?_, rotateCell_readsSource s⟩
    simp only [boundsOf, Raster.rows, Raster.cols, srcRaster_width, srcRaster_height, dstRaster_width, dstRaster_height, h1, h2]
  | blur =>
    obtain ⟨hr, hl⟩ := transformReady_of_firstError h
    obtain ⟨h1, h2, -⟩ := checkSameSize_none hl
    refine ⟨hr, ?_, blurCell_readsSource s _⟩
    simp only [boundsOf, Raster.rows, Raster.cols, srcRaster_width, srcRaster_height, dstRaster_width, dstRaster_height, h1, h2]
  | expand =>
    obtain ⟨hr, hl⟩ := transformReady_of_firstError h
    obtain ⟨h1, h2, -⟩ := checkDoubleSize_none hl
    refine ⟨hr, rfl, expandCell_readsSource ?_ ?_⟩
    · simp only [boundsOf, Raster.rows, srcRaster_height, dstRaster_height, h2]; omega
    · simp only [boundsOf, Raster.cols, srcRaster_width, dstRaster_width, h1]; omega

/-- A cell of a transform whose checks pass stops only at an Unwritten word of the SRC region (R212). -/
theorem cellOf_error {i : Instr} {s : State} (ht : isTransform i = true) (h : firstError (checksOf i s) = none)
    {row col : Nat} {f : Fault} (hr : row < (boundsOf i s).1) (hc : col < (boundsOf i s).2)
    (he : cellOf i s s.pmem row col = .error f) :
    f = .unwrittenRead ∧ ∃ a, InSrc s a ∧ s.pmem.read a = none := by
  have hs := (transform_passed ht h).1.1
  have finish : ∀ r c, r < (srcRaster s).rows → c < (srcRaster s).cols → s.pmem.read ((srcRaster s).addr r c) = none →
      ∃ a, InSrc s a ∧ s.pmem.read a = none :=
    fun r c hr hc hn => ⟨_, (srcRegion_iff hs _).mp (Raster.region_addr hr hc), hn⟩
  cases i with
  | makePixel => cases ht
  | getRed => cases ht
  | getGreen => cases ht
  | getBlue => cases ht
  | getAlpha => cases ht
  | index => cases ht
  | squash =>
    obtain ⟨h1, h2, h3, h4⟩ := squashCell_error he
    exact ⟨h4, finish _ _ h1 h2 h3⟩
  | colorRotate =>
    obtain ⟨h1, h2⟩ := rotateCell_error he
    exact ⟨h2, finish _ _ hr hc h1⟩
  | blur =>
    obtain ⟨r, c, h1, h2, h3, h4⟩ := blurCell_error hr hc he
    exact ⟨h4, finish _ _ h1 h2 h3⟩
  | expand =>
    obtain ⟨-, hl⟩ := transformReady_of_firstError h
    obtain ⟨e1, e2, -⟩ := checkDoubleSize_none hl
    simp only [boundsOf, Raster.rows, Raster.cols, dstRaster_width, dstRaster_height, e1, e2] at hr hc
    have hi : row / 2 < (srcRaster s).rows := by simp only [Raster.rows, srcRaster_height]; omega
    have hj : col / 2 < (srcRaster s).cols := by simp only [Raster.cols, srcRaster_width]; omega
    obtain ⟨r, c, h1, h2, h3, h4⟩ := expandCell_error hi hj he
    exact ⟨h4, finish _ _ h1 h2 h3⟩

/-- Everything a command can do: raise an error, write RESULT, write words of DST, or stop at an Unwritten word of SRC. -/
theorem exec_outcomes (i : Instr) (s : State) :
    (∃ e, firstError (checksOf i s) = some e ∧ exec i s = .next (raiseError e (encode i) s)) ∨
    (isTransform i = false ∧ firstError (checksOf i s) = none ∧ exec i s = .next (s.setResult (resultOf i s))) ∨
    (isTransform i = true ∧ firstError (checksOf i s) = none ∧ TransformReady s ∧
      ∃ m, exec i s = .next (s.setPmem m) ∧ (s.pmem.wf = true → m.wf = true) ∧
        (s.pmem.inside s.cfg.pmemWords = true → m.inside s.cfg.pmemWords = true) ∧
        ∀ a, ¬InDst s a → m.read a = s.pmem.read a) ∨
    (isTransform i = true ∧ firstError (checksOf i s) = none ∧ TransformReady s ∧ exec i s = .fault .unwrittenRead ∧
      ∃ a, InSrc s a ∧ s.pmem.read a = none) := by
  rw [exec_eq]
  rcases runChecked_cases i (checksOf i s)
      (if isTransform i then transformEffect (cellOf i s) (boundsOf i s).1 (boundsOf i s).2 s else .ok (s.setResult (resultOf i s)))
      s with ⟨e, he, hx⟩ | ⟨hn, t, ht, hx⟩ | ⟨hn, f, hf, hx⟩
  · exact .inl ⟨e, he, hx⟩
  · rw [hx]
    cases hi : isTransform i with
    | false =>
      simp only [hi, Bool.false_eq_true, if_false] at ht
      cases ht
      exact .inr (.inl ⟨rfl, hn, rfl⟩)
    | true =>
      simp only [hi, if_true] at ht
      obtain ⟨hr, hb, hc⟩ := transform_passed hi hn
      obtain ⟨m, rfl, hw, hin, -, -, hout⟩ := transformEffect_spec hr hc (by simp [hb]) (by simp [hb]) ht
      refine .inr (.inr (.inl ⟨rfl, hn, hr, m, rfl, hw, hin, fun a ha => hout a ?_⟩))
      intro row col v hrow hcol _ e
      refine ha ((dstRegion_iff hr.2.1 a).mp ?_)
      rw [← e, ← dstRaster_addr hr.2.1.1]
      exact Raster.region_addr (by simpa [hb] using hrow) (by simpa [hb] using hcol)
  · rw [hx]
    cases hi : isTransform i with
    | false => simp [hi] at hf
    | true =>
      simp only [hi, if_true] at hf
      obtain ⟨hr, hb, hc⟩ := transform_passed hi hn
      obtain ⟨row, col, hrow, hcol, hcell⟩ := transformEffect_error hr hc (by simp [hb]) (by simp [hb]) hf
      obtain ⟨rfl, ha⟩ := cellOf_error hi hn hrow hcol hcell
      exact .inr (.inr (.inr ⟨rfl, hn, hr, rfl, ha⟩))

/-- A transform that is ready, whose own checks pass and all of whose cells have a value, answers the state its effect leaves. -/
theorem exec_transform {i : Instr} {s : State} (ht : isTransform i = true) (h : firstError (checksOf i s) = none)
    (hv : ∀ row col, row < s.dstHeight.toNat → col < s.dstWidth.toNat → ∃ o, cellOf i s s.pmem row col = .ok o) :
    ∃ m, exec i s = .next (s.setPmem m) ∧
      (∀ row col v, row < s.dstHeight.toNat → col < s.dstWidth.toNat → cellOf i s s.pmem row col = .ok (some v) →
        m.read (dstAddr s row col) = some v) ∧
      (∀ a, (∀ row col v, row < s.dstHeight.toNat → col < s.dstWidth.toNat → cellOf i s s.pmem row col = .ok (some v) →
        dstAddr s row col ≠ a) → m.read a = s.pmem.read a) := by
  obtain ⟨hr, hb, hc⟩ := transform_passed ht h
  rw [hb] at hc
  have hrows := dstRaster_rows hr.2.1.2.1
  have hcols := dstRaster_cols hr.2.1.1
  obtain ⟨m, hm, h2, h3⟩ := transformEffect_ok hr hc le_rfl le_rfl (by simpa only [hrows, hcols] using hv)
  simp only [hrows, hcols] at h2 h3
  refine ⟨m, ?_, h2, h3⟩
  rw [exec_eq]
  exact runChecked_ok s h (by simp only [ht, if_true, hb, hm])

/-- A destination cell lies in DST (R141). -/
theorem inDst_dstAddr {s : State} (hd : DstFits s) {row col : Nat} (hr : row < s.dstHeight.toNat) (hc : col < s.dstWidth.toNat) :
    InDst s (dstAddr s row col) := by
  rw [← dstRegion_iff hd, ← dstRaster_addr hd.1]
  exact Raster.region_addr (by rwa [dstRaster_rows hd.2.1]) (by rwa [dstRaster_cols hd.1])

/-- Every word of DST is a destination cell (R141). -/
theorem exists_dstAddr {s : State} (hd : DstFits s) {a : Nat} (h : InDst s a) :
    ∃ row col, row < s.dstHeight.toNat ∧ col < s.dstWidth.toNat ∧ dstAddr s row col = a := by
  obtain ⟨row, col, hr, hc, ha⟩ := Raster.exists_addr ((dstRegion_iff hd a).mpr h)
  rw [dstRaster_rows hd.2.1] at hr
  rw [dstRaster_cols hd.1] at hc
  rw [dstRaster_addr hd.1] at ha
  exact ⟨row, col, hr, hc, ha⟩

end Sys2Proof.Machine
end

