-- ==== Sys2Proof/Laws/PerInstr.lean ====
section
/-!
SUPPORT. Facts about every instruction as syntax, one lemma per constructor. RoundTrip: the command word of the instruction is legal and
decodes to it (R94, R95).
-/

namespace Sys2Proof.Laws.RoundTrip

/-- The instruction's word passes the check of R95 and decodes to the instruction. -/
def Statement (i : Instr) : Prop := commandWordOk (encode i) = true ∧ decode (encode i) = .ok i

theorem makePixel : Statement .makePixel := ⟨rfl, rfl⟩
theorem getRed : Statement .getRed := ⟨rfl, rfl⟩
theorem getGreen : Statement .getGreen := ⟨rfl, rfl⟩
theorem getBlue : Statement .getBlue := ⟨rfl, rfl⟩
theorem getAlpha : Statement .getAlpha := ⟨rfl, rfl⟩
theorem index : Statement .index := ⟨rfl, rfl⟩
theorem squash : Statement .squash := ⟨rfl, rfl⟩
theorem colorRotate : Statement .colorRotate := ⟨rfl, rfl⟩
theorem blur : Statement .blur := ⟨rfl, rfl⟩
theorem expand : Statement .expand := ⟨rfl, rfl⟩

end Sys2Proof.Laws.RoundTrip
end

