-- ==== Sys2Proof/Laws/Step.lean ====
section
/-!
SUPPORT. What a step can do, said once: the slot of an offset, the outcomes of a command issue and of a step.
-/

namespace Sys2Proof.Machine

@[simp] theorem slotAt_offset (slot : Slot) : slotAt slot.offset = .ok slot := by cases slot <;> rfl

/-- An offset the register port accepts is the offset of one slot (R30, R61). -/
theorem slotAt_eq_ok {off : Nat} {slot : Slot} : slotAt off = .ok slot ↔ off = slot.offset := by
  constructor
  · intro h
    unfold slotAt at h
    split at h
    · cases h
    · rename_i h4
      split at h <;> cases h <;> simp only [Slot.offset] <;> omega
  · rintro rfl
    exact slotAt_offset slot

/-- The offsets the register port refuses (R61, R213). -/
theorem slotAt_eq_error {off : Nat} {r : Refusal} : slotAt off = .error r ↔
    (off % 4 ≠ 0 ∧ r = .misalignedOffset) ∨ (off % 4 = 0 ∧ off > 0x3C ∧ r = .offsetBeyondSlots) := by
  constructor
  · intro h
    unfold slotAt at h
    split at h
    · cases h; exact .inl ⟨‹_›, rfl⟩
    · rename_i h4
      split at h <;> cases h
      rename_i hx
      refine .inr ⟨by omega, ?_, rfl⟩
      by_contra hle
      have : off / 4 ≤ 15 := by omega
      generalize off / 4 = n at *
      interval_cases n <;> simp_all
  · rintro (⟨h, rfl⟩ | ⟨h4, h, rfl⟩)
    · simp [slotAt, h]
    · cases hs : slotAt off with
      | ok slot =>
        have := slotAt_eq_ok.mp hs
        cases slot <;> simp only [Slot.offset] at this <;> omega
      | error r =>
        unfold slotAt at hs
        simp only [h4, ne_eq, not_true_eq_false, if_false] at hs
        split at hs <;> cases hs
        rfl

/-- The three outcomes of a command issue (R97, R204). -/
theorem issueCommand_cases (w : Word) (s : State) :
    (errFlag s.status = true ∧ issueCommand w s = .next s) ∨
    (errFlag s.status = false ∧ (∀ i, decode w ≠ .ok i) ∧ issueCommand w s = .next (raiseError .illegalCmd w s)) ∨
    (errFlag s.status = false ∧ ∃ i, decode w = .ok i ∧ issueCommand w s = exec i s) := by
  unfold issueCommand
  cases he : errFlag s.status with
  | true => exact .inl ⟨rfl, rfl⟩
  | false =>
    cases hd : decode w with
    | error r => exact .inr (.inl ⟨rfl, by simp, rfl⟩)
    | ok i => exact .inr (.inr ⟨rfl, i, rfl, rfl⟩)

/-- The three forms of a step (R212, R217, R246). -/
theorem step_cases (s : State) :
    (∃ f, s.fault = some f ∧ step s = .fault f) ∨
    (s.fault = none ∧ s.pending = [] ∧ step s = .next s) ∨
    (∃ a rest, s.fault = none ∧ s.pending = a :: rest ∧ step s = takeAction a (s.popAction rest)) := by
  unfold step hostStep
  cases hf : s.fault with
  | some f => exact .inl ⟨f, rfl, rfl⟩
  | none =>
    cases hp : s.pending with
    | nil => exact .inr (.inl ⟨rfl, rfl, rfl⟩)
    | cons a rest => exact .inr (.inr ⟨a, rest, rfl, rfl, rfl⟩)

theorem step_of_pending {s : State} {a : HostAction} {rest : List HostAction} (hf : s.fault = none)
    (hp : s.pending = a :: rest) : step s = takeAction a (s.popAction rest) := by
  simp [step, hostStep, hf, hp]

/-- A write to CMD is a command issue (R31). -/
theorem takeAction_cmd (w : Word) (s : State) : takeAction (.regWrite 0 w) s = issueCommand w s := rfl

/-- What a command leaves of the state, whatever it is: only STATUS, RESULT and PMEM can differ (R33, R34). -/
theorem exec_next_fields {i : Instr} {s t : State} (h : exec i s = .next t) :
    t = { s with status := t.status, result := t.result, pmem := t.pmem } := by
  rcases exec_outcomes i s with ⟨e, -, hx⟩ | ⟨-, -, hx⟩ | ⟨-, -, -, m, hx, -⟩ | ⟨-, -, -, hx, -⟩ <;>
    rw [hx] at h <;> cases h <;> rfl

end Sys2Proof.Machine
end

