-- ==== Sys2Proof/Tests/Slice0.lean ====
section
/-!
SUPPORT. The model's own tests: ill-formed terms that the checks refuse, the spec's words and vectors (95_test_vectors.md, named beside each
test), and for each obligation with hypotheses a witness: a concrete state and operands that meet all of them together.
-/

namespace Sys2Proof.Tests
open Sys2Proof.Machine

/-! ## Small states -/

/-- A chip with `words` words of PMEM, at least 1. -/
def chip (words : Fin 2147483648) (fill : OobFill) : Config :=
  { topWord := words - 1, squashOobFill := fill, hostByteOrder := .littleEndian, regBase := 0, pmemBase := 0 }

/-- The state after a power-on reset of a chip with 64 words, the size of the vectors of 95_test_vectors.md. -/
def fresh : State := { State.reset with cfg := chip 64 .keep }

/-- `fresh` with SRC, DST and ARG0, ARG1 set, and words written from address 0 on. -/
def setUp (src dst : Word × Word × Word) (a0 a1 : Word) (pixels : List Word) : State :=
  { fresh with
    srcBase := src.1, srcWidth := src.2.1, srcHeight := src.2.2,
    dstBase := dst.1, dstWidth := dst.2.1, dstHeight := dst.2.2,
    arg0 := a0, arg1 := a1, pmem := pixels.mapIdx fun k v => (k, v) }

/-- IMG3, width 3 and height 3. -/
def img3 : List Word :=
  [0xFF000080, 0x00FF0080, 0x0000FF80, 0x80800080, 0xFFFFFF80, 0x00000080, 0xFF00FF80, 0x00FFFF80, 0xFFFF0080]

/-- The next state of an outcome. -/
def after : Host.Outcome State Fault Refusal → Option State
  | .next t => some t
  | .fault _ => none
  | .refused _ => none

/-- The fault of an outcome. -/
def faultOf : Host.Outcome State Fault Refusal → Option Fault
  | .next _ => none
  | .fault f => some f
  | .refused _ => none

/-- The refusal of an outcome. -/
def refusalOf : Host.Outcome State Fault Refusal → Option Refusal
  | .next _ => none
  | .fault _ => none
  | .refused r => some r

/-- STATUS and RESULT after a command. -/
def scalars (o : Host.Outcome State Fault Refusal) : Option (Word × Word) := (after o).map fun t => (t.status, t.result)

/-- STATUS after a command, and `n` words of PMEM from address `a` on. -/
def words (o : Host.Outcome State Fault Refusal) (a n : Nat) : Option (Word × List (Option Word)) :=
  (after o).map fun t => (t.status, (List.range n).map fun k => t.pmem.read (a + k))

/-! ## Ill-formed terms are refused -/

theorem test_word_with_reserved_bits_is_ill_formed : commandWordOk 0x00000101#32 = false := by decide
theorem test_word_zero_is_ill_formed : commandWordOk 0x00000000#32 = false := by decide
theorem test_word_above_the_table_is_ill_formed : commandWordOk 0x0000000B#32 = false := by decide
theorem test_misaligned_offset_is_ill_formed : offsetOk 0x02 = false := by decide
theorem test_offset_above_the_slots_is_ill_formed : offsetOk 0x40 = false := by decide
theorem test_address_at_the_end_is_ill_formed : addressOk (chip 64 .keep) 64 = false := by decide
theorem test_other_width_is_ill_formed : (HostAction.otherWidth 8).wellFormed (chip 64 .keep) = false := by decide

/-! ## Decoding, by words written out from R94 -/

theorem test_decode_makePixel : decode 0b00000000000000000000000000000001#32 = .ok .makePixel := by decide
theorem test_decode_getRed : decode 0b00000000000000000000000000000010#32 = .ok .getRed := by decide
theorem test_decode_getGreen : decode 0b00000000000000000000000000000011#32 = .ok .getGreen := by decide
theorem test_decode_getBlue : decode 0b00000000000000000000000000000100#32 = .ok .getBlue := by decide
theorem test_decode_getAlpha : decode 0b00000000000000000000000000000101#32 = .ok .getAlpha := by decide
theorem test_decode_index : decode 0b00000000000000000000000000000110#32 = .ok .index := by decide
theorem test_decode_squash : decode 0b00000000000000000000000000000111#32 = .ok .squash := by decide
theorem test_decode_colorRotate : decode 0b00000000000000000000000000001000#32 = .ok .colorRotate := by decide
theorem test_decode_blur : decode 0b00000000000000000000000000001001#32 = .ok .blur := by decide
theorem test_decode_expand : decode 0b00000000000000000000000000001010#32 = .ok .expand := by decide
/-- L2-X4: RSV ≠ 0. -/
theorem test_decode_refuses_reserved_bits : decode 0x00000101#32 = .error .reservedBits := by decide
/-- L2-X2. -/
theorem test_decode_refuses_0B : decode 0x0000000B#32 = .error .opcodeUnassigned := by decide

/-! ## The commands -/

/-- L2-P3: masking, not clamping. -/
theorem test_makePixel_masks : scalars (exec .makePixel
    { fresh with arg0 := 0xFFFFFFFF, arg1 := 0x00000100, arg2 := 0x000001FF, arg3 := 0x80000001 }) =
    some (0x00000000, 0xFF00FF01) := by decide
/-- L2-P6. -/
theorem test_getRed : scalars (exec .getRed { fresh with arg0 := 0x12345678 }) = some (0x00000000, 0x00000012) := by decide
/-- L2-P6. -/
theorem test_getGreen : scalars (exec .getGreen { fresh with arg0 := 0x12345678 }) = some (0x00000000, 0x00000034) := by decide
/-- L2-P10. -/
theorem test_getBlue : scalars (exec .getBlue { fresh with arg0 := 0x80FF7F01 }) = some (0x00000000, 0x0000007F) := by decide
/-- L2-P10. -/
theorem test_getAlpha : scalars (exec .getAlpha { fresh with arg0 := 0x80FF7F01 }) = some (0x00000000, 0x00000001) := by decide
/-- L1-6: truncation, not rounding. -/
theorem test_avg_truncates : avg [0x00000000#32, 0xFF000000#32, 0x80000000#32, 0x40000000#32] = .ok 0x6F000000#32 := by decide

/-- L2-I4: the base is not added. -/
theorem test_index : scalars (exec .index { setUp (5, 4, 2) (0, 0, 0) 1 3 [] with cfg := chip 256 .keep }) =
    some (0x00000000, 0x00000007) := by decide
/-- L2-I12: the base is unsigned. -/
theorem test_index_base_is_unsigned :
    scalars (exec .index { setUp (0x80000000, 1, 1) (0, 0, 0) 0 0 [] with cfg := chip 256 .keep }) =
    some (0x00000631, 0x00000000) := by decide

/-- L1-5, the source's own example. -/
theorem test_squash : words (exec .squash (setUp (0, 3, 3) (16, 2, 3) 2 1 img3)) 16 6 =
    some (0x00000000, [some 0xFF000080, some 0x0000FF80, some 0x80800080, some 0x00000080, some 0xFF00FF80, some 0xFFFF0080]) := by
  decide
/-- L2-S6 with SQUASH_OOB_FILL = Zero as L2-S4 has it: the out-of-range cell is zeroed. -/
theorem test_squash_fill_zero :
    words (exec .squash { setUp (0, 3, 3) (16, 2, 1) 5 1 img3 with cfg := chip 64 .zero }) 16 2 =
    some (0x00000000, [some 0xFF000080, some 0x00000000]) := by decide

/-- L2-R7. -/
theorem test_colorRotate : words (exec .colorRotate (setUp (0, 2, 1) (8, 2, 1) 0 0 [0x11223344, 0xAABBCCDD])) 8 2 =
    some (0x00000000, [some 0x33112244, some 0xCCAABBDD]) := by decide
/-- L2-X16: the first check that fails is reported, here of BLUR. -/
theorem test_blur_reports_first_check : words (exec .blur (setUp (0, 0, 3) (0, 0, 3) 0xFFFFFFFF 0 img3)) 0 1 =
    some (0x00000921, [some 0xFF000080]) := by decide
/-- L2-B2: clipped windows, and the centre's alpha. -/
theorem test_blur : words (exec .blur (setUp (0, 4, 1) (8, 4, 1) 1 0 [0x00000010, 0xFF0000FF, 0x01020300, 0x0A0B0C0D])) 8 4 =
    some (0x00000000, [some 0x7F000010, some 0x550001FF, some 0x58040500, some 0x0506070D]) := by decide
/-- L1-8: a source of one row. -/
theorem test_expand : words (exec .expand (setUp (0, 3, 1) (4, 6, 2) 0 0 [0x10203040, 0x30405060, 0xF0E0D0C0])) 4 12 =
    some (0x00000000,
      [some 0x10203040, some 0x20304050, some 0x30405060, some 0x90909090, some 0xF0E0D0C0, some 0xF0E0D0C0,
       some 0x10203040, some 0x20304050, some 0x30405060, some 0x90909090, some 0xF0E0D0C0, some 0xF0E0D0C0]) := by decide
/-- L2-E5: ALIAS is checked before DIM_MISMATCH. -/
theorem test_expand_reports_alias : words (exec .expand (setUp (0, 3, 3) (4, 1, 1) 0 0 img3)) 4 1 =
    some (0x00000A61, [some 0xFFFFFF80]) := by decide

/-! ## The host's ports -/

/-- L2-X18: each refused access. -/
theorem test_refused_accesses :
    refusalOf (step (fresh.load [.regWrite 0x02 5])) = some .misalignedOffset ∧
    refusalOf (step (fresh.load [.regWrite 0x40 5])) = some .offsetBeyondSlots ∧
    refusalOf (step (fresh.load [.memWrite 64 5])) = some .addressBeyondPmem := by decide
/-- L2-X19: a read of an Unwritten word. -/
theorem test_unwritten_read : faultOf (step (fresh.load [.memRead 0])) = some .unwrittenRead := by decide
/-- L2-X17, steps 3 and 5: a discarded command, and a write to STATUS that does not clear it. -/
theorem test_error_state_is_sticky :
    after (step ({ fresh with status := 0x00000B11 }.load [.regWrite 0x00 1])) =
      some { fresh with status := 0x00000B11, position := 1 } ∧
    after (step ({ fresh with status := 0x00000B11 }.load [.regWrite 0x04 0xFFFFFFFE])) =
      some { fresh with status := 0x00000B11, position := 1 } := by decide
/-- L2-X17, step 6. -/
theorem test_clrerr : after (step ({ fresh with status := 0x00000B11 }.load [.regWrite 0x04 1])) =
    some { fresh with status := 0, position := 1 } := by decide

/-! ## The host's notation -/

/-- R99: a negative number, and R98: a comment. -/
theorem test_assemble_negative : assembleLine "wreg ARG0, -1 ; row" = some [.regWrite 0x30 0xFFFFFFFF] := by decide
/-- R98: mnemonics are case-insensitive. -/
theorem test_assemble_cmd : assembleLine "CMD  make_pixel" = some [.regWrite 0x00 0x00000001] := by decide
/-- L3-1: a line with its comment. -/
theorem test_assemble_setsrc : assembleLine "setsrc 0, 4, 3" = some [.regWrite 0x10 0, .regWrite 0x14 4, .regWrite 0x18 3] := by
  decide
/-- R99: wmemv counts addresses up. -/
theorem test_assemble_wmemv : assembleLine "wmemv 0x10, 7, 0x8" = some [.memWrite 16 7, .memWrite 17 8] := by decide

/-! ## Witnesses: for each obligation with hypotheses, a concrete state and operands that meet them all -/

/-- `fresh` with a host list. -/
def withList (l : List HostAction) : State := { fresh with pending := l }

/-- `fresh` in the error state, with a host list. -/
def inError (l : List HostAction) : State := { fresh with status := 0x00000B11, pending := l }

/-- Both descriptors fit and DST starts at or after the end of SRC, from numbers. -/
theorem ready_of {s : State} (h : 1 ≤ s.srcWidth.toInt ∧ 1 ≤ s.srcHeight.toInt ∧ 1 ≤ s.dstWidth.toInt ∧ 1 ≤ s.dstHeight.toInt ∧
    (s.srcBase.toNat : Int) + s.srcWidth.toInt * s.srcHeight.toInt ≤ s.dstBase.toNat ∧
    (s.dstBase.toNat : Int) + s.dstWidth.toInt * s.dstHeight.toInt ≤ s.cfg.pmemWords) : TransformReady s := by
  obtain ⟨h1, h2, h3, h4, h5, h6⟩ := h
  have hd : 0 ≤ s.dstWidth.toInt * s.dstHeight.toInt := Int.mul_nonneg (by omega) (by omega)
  refine ⟨⟨h1, h2, by omega⟩, ⟨h3, h4, h6⟩, fun a ha => ?_⟩
  have h7 := ha.1.2
  have h8 := ha.2.1
  omega

/-- SRC ends by word `n` and the first `n` words are Written. -/
theorem srcWritten_of {s : State} (n : Nat)
    (h : (s.srcBase.toNat : Int) + s.srcWidth.toInt * s.srcHeight.toInt ≤ n ∧ ∀ a < n, (s.pmem.read a).isSome = true) :
    SrcWritten s := by
  intro a ha
  have h7 := ha.2
  exact Option.isSome_iff_exists.mp (h.2 a (by omega))

/-- The words of R95 at the edges of its three cases. -/
theorem witness_IllegalWordsRaiseIllegalCmd :
    ∀ w ∈ [0x00000000#32, 0x0000000B#32, 0x000000FF#32, 0x00000101#32, 0x8000000A#32],
      (∃ r, decode w = .error r) ∧ Awaits (withList [.regWrite 0x00 w]) (.regWrite 0x00 w) [] ∧
      (withList [.regWrite 0x00 w]).status.getLsbD 0 = false ∧
      ((w.extractLsb 7 0).toNat = 0x00 ∨ 0x0B ≤ (w.extractLsb 7 0).toNat ∨ w.extractLsb 31 8 ≠ 0#24) := by
  intro w hw
  refine ⟨?_, ⟨rfl, rfl⟩, show (0#32).getLsbD 0 = false from rfl, ?_⟩ <;> revert w <;> simp only [List.forall_mem_cons, List.not_mem_nil]
  · exact ⟨⟨_, rfl⟩, ⟨_, rfl⟩, ⟨_, rfl⟩, ⟨_, rfl⟩, ⟨_, rfl⟩, fun _ h => h.elim⟩
  · refine ⟨?_, ?_, ?_, ?_, ?_, fun _ h => h.elim⟩ <;> decide

/-- The three cases of a CMD write: in the error state, a legal word, an illegal word. -/
theorem witness_StepRunsDecodedCommand :
    (Awaits (inError [.regWrite 0x00 1#32]) (.regWrite 0x00 1#32) [] ∧ (inError [.regWrite 0x00 1#32]).status.getLsbD 0 = true) ∧
    (Awaits (withList [.regWrite 0x00 0x0A#32]) (.regWrite 0x00 0x0A#32) [] ∧
      (withList [.regWrite 0x00 0x0A#32]).status.getLsbD 0 = false ∧ decode 0x0A#32 = .ok .expand) ∧
    (Awaits (withList [.regWrite 0x00 0x0B#32]) (.regWrite 0x00 0x0B#32) [] ∧
      (withList [.regWrite 0x00 0x0B#32]).status.getLsbD 0 = false ∧ decode 0x0B#32 = .error .opcodeUnassigned) :=
  ⟨⟨⟨rfl, rfl⟩, rfl⟩, ⟨⟨rfl, rfl⟩, rfl, rfl⟩, ⟨rfl, rfl⟩, rfl, rfl⟩

theorem witness_WithFetchWordRunsTheCommand : fresh.fault = none ∧ fresh.status.getLsbD 0 = false := ⟨rfl, rfl⟩

/-- A CMD write, a read and a write of STATUS, and one access of each other kind, in the error state. -/
theorem witness_CommandsAreDiscardedInErrorState :
    (Awaits (inError [.regWrite 0x00 0#32]) (.regWrite 0x00 0#32) [] ∧ (inError [.regWrite 0x00 0#32]).status.getLsbD 0 = true) ∧
    Awaits (inError [.regRead 0x04]) (.regRead 0x04) [] ∧
    Awaits (inError [.regWrite 0x04 1#32]) (.regWrite 0x04 1#32) [] ∧
    (Awaits (inError [.regWrite 0x08 1#32]) (.regWrite 0x08 1#32) [] ∧ 0x08 ≠ 0x00 ∧ 0x08 ≠ 0x04) ∧
    (Awaits (inError [.regRead 0x00]) (.regRead 0x00) [] ∧ 0x00 ≠ 0x04) ∧
    Awaits (inError [.memWrite 63 1#32]) (.memWrite 63 1#32) [] ∧ Awaits (inError [.memRead 0]) (.memRead 0) [] :=
  ⟨⟨⟨rfl, rfl⟩, rfl⟩, ⟨rfl, rfl⟩, ⟨rfl, rfl⟩, ⟨⟨rfl, rfl⟩, by decide⟩, ⟨⟨rfl, rfl⟩, by decide⟩, ⟨rfl, rfl⟩, ⟨rfl, rfl⟩⟩

theorem witness_MakePixelPacksLowBytes : fresh.status.getLsbD 0 = false ∧ ((0x00000101#32).extractLsb 7 0).toNat = 0x01 ∧
    (0x00000101#32).extractLsb 31 8 ≠ 0#24 := by decide

theorem witness_AverageIsTheTruncatedLaneMean :
    [0xFF000080#32] ≠ [] ∧ chA ∈ [chR, chG, chB, chA] ∧ [1#32, 2#32].Perm [2#32, 1#32] :=
  ⟨by decide, by simp, List.Perm.swap ..⟩

/-- The last cell of L2-I3, a width of 0 (L2-I9), a region one word too long (L2-X8), and a row at the bound (L2-I5). -/
theorem witness_IndexAnswersLinearIndex :
    (SrcFits (setUp (0, 3, 3) (0, 0, 0) 2 2 []) ∧ 0 ≤ (2#32).toInt ∧ (2#32).toInt < (3#32).toInt) ∧
    (setUp (0, 0, 3) (0, 0, 0) 0 0 []).srcWidth.toInt < 1 ∧
    (1 ≤ (3#32).toInt ∧ ((setUp (56, 3, 3) (0, 0, 0) 0 0 []).srcBase.toNat : Int) + (3#32).toInt * (3#32).toInt > fresh.cfg.pmemWords) ∧
    (SrcFits (setUp (0, 3, 3) (0, 0, 0) 3 0 []) ∧
      (setUp (0, 3, 3) (0, 0, 0) 3 0 []).arg0.toInt ≥ (setUp (0, 3, 3) (0, 0, 0) 3 0 []).srcHeight.toInt) := by
  unfold SrcFits; decide

theorem witness_LinearIndexIsABijection : 1 + 1 < 3 := by decide

/-- L1-5, and L2-S11: ALIAS comes before BAD_PARAM. -/
theorem witness_SquashSamplesPoints :
    (TransformReady (setUp (0, 3, 3) (16, 2, 3) 2 1 img3) ∧ 1 ≤ (2#32).toInt ∧ 1 ≤ (1#32).toInt ∧
      ∀ row col, row < 3 → col < 2 → row * 1 < 3 → col * 2 < 3 →
        ∃ v, (setUp (0, 3, 3) (16, 2, 3) 2 1 img3).pmem.read (srcAddr (setUp (0, 3, 3) (16, 2, 3) 2 1 img3) (row * 1) (col * 2)) = some v) ∧
    FirstViolation .squash (setUp (0, 3, 3) (2, 2, 2) 0 0 img3) .aliasRegions := by
  refine ⟨⟨ready_of (by decide), by decide, by decide, ?_⟩, ⟨rfl, 2, by unfold InSrc InDst; decide⟩, ?_⟩
  · intro row col hr hc _ _
    interval_cases row <;> interval_cases col <;> exact ⟨_, rfl⟩
  · intro e he
    cases e <;> first | exact absurd he (by decide) | (unfold Violates; decide)

/-- A DST of the largest size in range (L2-S2), with another fill and other words in DST. -/
theorem witness_SquashOfTheRightSizeIgnoresFill :
    ∃ (s s' : State) (fill : OobFill) (m : Memory), 1 ≤ 2 ∧
      s' = { s with cfg := { s.cfg with squashOobFill := fill }, pmem := m } ∧ fill ≠ s.cfg.squashOobFill ∧ m ≠ s.pmem ∧
      (∀ a, ¬InDst s a → m.read a = s.pmem.read a) ∧ TransformReady s ∧ 1 ≤ s.arg0.toInt ∧ 1 ≤ s.arg1.toInt ∧ SrcWritten s ∧
      s.dstHeight.toNat ≤ (s.srcHeight.toNat + s.arg1.toNat - 1) / s.arg1.toNat ∧
      s.dstWidth.toNat ≤ (s.srcWidth.toNat + s.arg0.toNat - 1) / s.arg0.toNat := by
  refine ⟨setUp (0, 3, 3) (16, 2, 2) 2 2 img3, _, .zero, (setUp (0, 3, 3) (16, 2, 2) 2 2 img3).pmem.write 16 7#32, by decide, rfl,
    by decide, by decide, fun a ha => Memory.read_write_other _ _ fun h => ha ?_, ready_of (by decide), by decide, by decide,
    srcWritten_of 9 (by decide), by decide, by decide⟩
  subst h
  unfold InDst; decide

/-- L2-R7 and L2-R8. -/
theorem witness_ColorRotatePermutesChannels :
    (TransformReady (setUp (0, 2, 1) (8, 2, 1) 0 0 [0x11223344, 0xAABBCCDD]) ∧
      SrcWritten (setUp (0, 2, 1) (8, 2, 1) 0 0 [0x11223344, 0xAABBCCDD])) ∧
    FirstViolation .colorRotate (setUp (0, 2, 1) (8, 1, 2) 0 0 [0x11223344, 0xAABBCCDD]) .dimMismatch := by
  refine ⟨⟨ready_of (by decide), srcWritten_of 2 (by decide)⟩, .inl ⟨.inl rfl, .inl (by decide)⟩, ?_⟩
  intro e he
  cases e <;> first
    | exact absurd he (by decide)
    | (unfold Violates; decide)
    | exact fun h => h.2.elim fun a ha => (ready_of (s := setUp (0, 2, 1) (8, 1, 2) 0 0 [0x11223344, 0xAABBCCDD]) (by decide)).2.2 a ha

/-- Through words 0, 8, 16 and 24, from the state of L2-R7. -/
theorem witness_ThreeRotationsRestoreTheRaster :
    ∃ (s t₁ t₂ t₃ : State) (c d : Word) (row col : Nat), s.status.getLsbD 0 = false ∧
      exec .colorRotate s = .next t₁ ∧ t₁.status = s.status ∧
      exec .colorRotate { t₁ with srcBase := s.dstBase, dstBase := c } = .next t₂ ∧ t₂.status = s.status ∧
      exec .colorRotate { t₂ with srcBase := c, dstBase := d } = .next t₃ ∧ t₃.status = s.status ∧
      row < s.srcHeight.toNat ∧ col < s.srcWidth.toNat :=
  ⟨setUp (0, 2, 1) (8, 2, 1) 0 0 [0x11223344, 0xAABBCCDD], _, _, _, 16#32, 24#32, 0, 1, rfl, rfl, rfl, rfl, rfl, rfl, rfl, by decide, by decide⟩

/-- L2-B1, and L2-B9: DIM_MISMATCH comes before BAD_PARAM. -/
theorem witness_BlurAveragesTheWindow :
    (TransformReady (setUp (0, 3, 3) (16, 3, 3) 1 0 img3) ∧ 0 ≤ (1#32).toInt ∧ SrcWritten (setUp (0, 3, 3) (16, 3, 3) 1 0 img3)) ∧
    FirstViolation .blur (setUp (0, 3, 3) (16, 2, 2) 0xFFFFFFFF 0 img3) .dimMismatch := by
  refine ⟨⟨ready_of (by decide), by decide, srcWritten_of 9 (by decide)⟩, .inl ⟨.inr rfl, .inl (by decide)⟩, ?_⟩
  intro e he
  cases e <;> first
    | exact absurd he (by decide)
    | (unfold Violates; decide)
    | exact fun h => h.2.elim fun a ha => (ready_of (s := setUp (0, 3, 3) (16, 2, 2) 0xFFFFFFFF 0 img3) (by decide)).2.2 a ha

theorem witness_BlurWindowSize : 0 < 3 ∧ 2 < 3 := by decide

/-- L1-1. -/
theorem witness_BlurOfDistanceZeroIsACopy :
    TransformReady (setUp (0, 3, 3) (16, 3, 3) 0 0 img3) ∧ SrcWritten (setUp (0, 3, 3) (16, 3, 3) 0 0 img3) :=
  ⟨ready_of (by decide), srcWritten_of 9 (by decide)⟩

/-- L1-2, with distances 2 and 0x7FFFFFFF. -/
theorem witness_BlurSaturates :
    TransformReady (setUp (0, 3, 3) (16, 3, 3) 2 0 img3) ∧ SrcWritten (setUp (0, 3, 3) (16, 3, 3) 2 0 img3) ∧
    (setUp (0, 3, 3) (16, 3, 3) 2 0 img3).pmem.wf = true ∧ (3#32).toInt - 1 ≤ (2#32).toInt ∧
    (3#32).toInt - 1 ≤ (0x7FFFFFFF#32).toInt :=
  ⟨ready_of (by decide), srcWritten_of 9 (by decide), by decide, by decide, by decide⟩

/-- L1-8, and L2-E4. -/
theorem witness_ExpandInterpolates :
    (TransformReady (setUp (0, 3, 1) (4, 6, 2) 0 0 [1, 2, 3]) ∧ (6#32).toInt = 2 * (3#32).toInt ∧ (2#32).toInt = 2 * (1#32).toInt ∧
      SrcWritten (setUp (0, 3, 1) (4, 6, 2) 0 0 [1, 2, 3])) ∧
    FirstViolation .expand (setUp (0, 2, 2) (8, 4, 3) 0 0 []) .dimMismatch := by
  refine ⟨⟨ready_of (by decide), by decide, by decide, srcWritten_of 3 (by decide)⟩, .inr ⟨rfl, .inr (by decide)⟩, ?_⟩
  intro e he
  cases e <;> first
    | exact absurd he (by decide)
    | (unfold Violates; decide)
    | exact fun h => h.2.elim fun a ha => (ready_of (s := setUp (0, 2, 2) (8, 4, 3) 0 0 []) (by decide)).2.2 a ha

/-- One raster that meets the premise of every clause: width 1, height 1, one value (L1-4). -/
theorem witness_ExpandLaws :
    TransformReady (setUp (0, 1, 1) (4, 2, 2) 0 0 [0x11223344]) ∧ SrcWritten (setUp (0, 1, 1) (4, 2, 2) 0 0 [0x11223344]) ∧
    (∀ a, InSrc (setUp (0, 1, 1) (4, 2, 2) 0 0 [0x11223344]) a →
      (setUp (0, 1, 1) (4, 2, 2) 0 0 [0x11223344]).pmem.read a = some 0x11223344#32) ∧
    InDst (setUp (0, 1, 1) (4, 2, 2) 0 0 [0x11223344]) 7 := by
  refine ⟨ready_of (by decide), srcWritten_of 1 (by decide), fun a ha => ?_, by unfold InDst; decide⟩
  have h1 : (a : Int) < 0 + 1 * 1 := ha.2
  obtain rfl : a = 0 := by omega
  rfl

/-- L3-4. -/
theorem witness_SquashUndoesExpand :
    ∃ (s t u : State) (b : Word) (row col : Nat), s.status.getLsbD 0 = false ∧ exec .expand s = .next t ∧ t.status = s.status ∧
      exec .squash { t with srcBase := s.dstBase, srcWidth := s.dstWidth, srcHeight := s.dstHeight, dstBase := b,
                            dstWidth := s.srcWidth, dstHeight := s.srcHeight, arg0 := 2#32, arg1 := 2#32 } = .next u ∧
      u.status = s.status ∧ row < s.srcHeight.toNat ∧ col < s.srcWidth.toNat :=
  ⟨setUp (0, 2, 2) (4, 4, 4) 0 0 [0x10203040, 0x30405060, 0x50607080, 0x70809000], _, _, 20#32, 1, 1, rfl, rfl, rfl, rfl, rfl,
    by decide, by decide⟩

/-- An illegal word, INDEX in a state with width 0 (L2-I9), and MAKE_PIXEL, which has no cause of an error. -/
theorem witness_FirstFailingCheckIsReported :
    (fresh.status.getLsbD 0 = false ∧ decode 0x0000000B#32 = .error .opcodeUnassigned) ∧
    FirstViolation .index (setUp (0, 0, 3) (0, 0, 0) 0 0 []) .badDimSrc ∧ ∀ e, ¬Violates .makePixel fresh e := by
  refine ⟨⟨rfl, rfl⟩, ⟨by unfold Violates; decide, fun e he => ?_⟩, fun e => ?_⟩
  · cases e <;> first | exact absurd he (by decide) | exact id
  · cases e <;> first | (unfold Violates; decide) | exact fun h => absurd h.1 (by decide)

/-- Outcomes of the three kinds: RESULT written, PMEM written, with a word outside DST, and an error recorded. -/
theorem witness_ACommandWritesOnePlaceOnly :
    (after (exec .getRed fresh)).isSome = true ∧ (after (exec .colorRotate (setUp (0, 1, 1) (1, 1, 1) 0 0 [5]))).isSome = true ∧
    ¬InDst (setUp (0, 1, 1) (1, 1, 1) 0 0 [5]) 0 ∧ ¬InDst (setUp (0, 1, 1) (1, 1, 1) 0 0 [5]) 2 ∧
    (after (exec .blur fresh)).isSome = true := by
  unfold InDst; decide

/-- A discarded command, a clear and a reset, in the error state. -/
theorem witness_TheFirstErrorIsKept :
    (inError [.regWrite 0x00 1#32]).status.getLsbD 0 = true ∧ (after (step (inError [.regWrite 0x00 1#32]))).isSome = true ∧
    (after (step (inError [.regWrite 0x04 1#32]))).isSome = true ∧ (after (step (inError [.reset]))).isSome = true := by decide

/-- A value with bit 0 = 1 and one without (L2-X17, steps 5 and 6). -/
theorem witness_StatusIsClearedByWritingBitZero :
    Awaits (inError [.regWrite 0x04 1#32]) (.regWrite 0x04 1#32) [] ∧
    Awaits (inError [.regWrite 0x04 0xFFFFFFFE#32]) (.regWrite 0x04 0xFFFFFFFE#32) [] := ⟨⟨rfl, rfl⟩, rfl, rfl⟩

theorem witness_ErrorsDoNotDependOnPixels : exec .blur fresh = .next { fresh with status := 0x00000921#32 } ∧
    0x00000921#32 ≠ fresh.status := ⟨rfl, by decide⟩

/-- A transform that ends, with a word in SRC and one in no region. -/
theorem witness_TheEngineWritesOnlyDst :
    (∃ t, exec .colorRotate (setUp (0, 1, 1) (1, 1, 1) 0 0 [5]) = .next t) ∧
    InSrc (setUp (0, 1, 1) (1, 1, 1) 0 0 [5]) 0 ∧ ¬InDst (setUp (0, 1, 1) (1, 1, 1) 0 0 [5]) 0 := by
  refine ⟨⟨_, rfl⟩, ?_⟩
  unfold InSrc InDst; decide

theorem witness_EachDstWordIsVisitedOnce : DstFits (setUp (0, 0, 0) (55, 3, 3) 0 0 []) := by unfold DstFits; decide

/-- Each loop on a small raster, with the cells in reverse order. -/
theorem witness_WriteOrderIsNotObservable :
    ∃ (s : State) (l : List (Nat × Nat)) (m m' m'' : Memory), TransformReady s ∧ s.pmem.wf = true ∧
      l.Perm (cells s.dstHeight.toNat s.dstWidth.toNat) ∧ l ≠ cells s.dstHeight.toNat s.dstWidth.toNat ∧
      storeCells (dstRaster s) (squashCell (srcRaster s) 1 1 .keep) (cells s.dstHeight.toNat s.dstWidth.toNat) s.pmem = .ok m ∧
      s.dstWidth = s.srcWidth ∧ s.dstHeight = s.srcHeight ∧
      storeCells (dstRaster s) (rotateCell (srcRaster s)) (cells s.dstHeight.toNat s.dstWidth.toNat) s.pmem = .ok m' ∧
      storeCells (dstRaster s) (blurCell (srcRaster s) 1) (cells s.dstHeight.toNat s.dstWidth.toNat) s.pmem = .ok m'' :=
  ⟨setUp (0, 2, 1) (8, 2, 1) 0 0 [0x11223344, 0xAABBCCDD], [(0, 1), (0, 0)], _, _, _, ready_of (by decide), by decide,
    List.Perm.swap .., by decide, rfl, rfl, rfl, rfl, rfl⟩

/-- The EXPAND clause of the same statement. -/
theorem witness_WriteOrderIsNotObservable_expand :
    ∃ (s : State) (m : Memory), TransformReady s ∧ s.pmem.wf = true ∧ s.dstWidth.toInt = 2 * s.srcWidth.toInt ∧
      s.dstHeight.toInt = 2 * s.srcHeight.toInt ∧
      storeCells (dstRaster s) (expandCell (srcRaster s)) (cells s.dstHeight.toNat s.dstWidth.toNat) s.pmem = .ok m :=
  ⟨setUp (0, 1, 1) (4, 2, 2) 0 0 [0x11223344], _, ready_of (by decide), by decide, by decide, by decide, rfl⟩

theorem witness_CommandsAreIdempotent : (setUp (0, 1, 1) (1, 1, 1) 0 0 [5]).pmem.wf = true ∧
    ∃ t, exec .colorRotate (setUp (0, 1, 1) (1, 1, 1) 0 0 [5]) = .next t := ⟨by decide, _, rfl⟩

/-- An Unwritten SRC word, with DST of the same size for COLOR_ROTATE, BLUR and SQUASH, and of twice the size for EXPAND. -/
theorem witness_UnwrittenSourceWordStopsTheTransform :
    (TransformReady (setUp (0, 1, 1) (1, 1, 1) 1 1 []) ∧ InSrc (setUp (0, 1, 1) (1, 1, 1) 1 1 []) 0 ∧
      (setUp (0, 1, 1) (1, 1, 1) 1 1 []).pmem.read 0 = none ∧ 1 ≤ (1#32).toInt ∧
      0 = srcAddr (setUp (0, 1, 1) (1, 1, 1) 1 1 []) (0 * 1) (0 * 1)) ∧
    TransformReady (setUp (0, 1, 1) (4, 2, 2) 0 0 []) ∧ InSrc (setUp (0, 1, 1) (4, 2, 2) 0 0 []) 0 := by
  refine ⟨⟨ready_of (by decide), by unfold InSrc; decide, rfl, by decide, rfl⟩, ready_of (by decide), by unfold InSrc; decide⟩

/-- Both origins of a model fault (L2-X19). -/
theorem witness_OnlyUnwrittenReadsFault :
    step (withList [.memRead 0]) = .fault .unwrittenRead ∧ (withList [.memRead 0]).fault = none ∧
    step { setUp (0, 1, 1) (1, 1, 1) 0 0 [] with pending := [.regWrite 0x00 8#32] } = .fault .unwrittenRead := ⟨rfl, rfl, rfl⟩

theorem witness_AModelFaultIsFinal :
    step (withList [.memRead 0]) = .fault .unwrittenRead ∧ ({ fresh with fault := some .unwrittenRead } : State).fault = some .unwrittenRead ∧
    ∃ t, step (withList [.reset]) = .next t := ⟨rfl, rfl, _, rfl⟩

/-- A write to each offset of the register map. -/
theorem witness_RegisterWritesStoreTheirValue :
    ∀ off ∈ [0x08, 0x0C, 0x10, 0x14, 0x18, 0x1C, 0x20, 0x24, 0x28, 0x2C, 0x30, 0x34, 0x38, 0x3C],
      Awaits (withList [.regWrite off 0xABCDEF01#32]) (.regWrite off 0xABCDEF01#32) [] := fun _ _ => ⟨rfl, rfl⟩

/-- A read of each offset of the register map. -/
theorem witness_RegisterReadsReturnTheirValue :
    ∀ off ∈ [0x00, 0x04, 0x08, 0x0C, 0x10, 0x14, 0x18, 0x1C, 0x20, 0x24, 0x28, 0x2C, 0x30, 0x34, 0x38, 0x3C],
      Awaits (withList [.regRead off]) (.regRead off) [] := fun _ _ => ⟨rfl, rfl⟩

/-- The last word of PMEM and the first address beyond it, written, read and Unwritten. -/
theorem witness_MemoryPortReadsAndWrites :
    (Awaits (withList [.memWrite 63 1#32]) (.memWrite 63 1#32) [] ∧ 63 < fresh.cfg.pmemWords) ∧
    (Awaits (withList [.memWrite 64 1#32]) (.memWrite 64 1#32) [] ∧ fresh.cfg.pmemWords ≤ 64) ∧
    (Awaits { withList [.memRead 63] with pmem := [(63, 5#32)] } (.memRead 63) [] ∧ Memory.read [(63, 5#32)] 63 = some 5#32) ∧
    (Awaits (withList [.memRead 63]) (.memRead 63) [] ∧ fresh.pmem.read 63 = none) ∧ Awaits (withList [.memRead 64]) (.memRead 64) [] :=
  ⟨⟨⟨rfl, rfl⟩, by decide⟩, ⟨⟨rfl, rfl⟩, by decide⟩, ⟨⟨rfl, rfl⟩, rfl⟩, ⟨⟨rfl, rfl⟩, rfl⟩, rfl, rfl⟩

/-- Each refused access at its edge (L2-X18). -/
theorem witness_ExactlyTheIllFormedAccessesAreRefused :
    (Awaits (withList [.regWrite 0x3D 1#32]) (.regWrite 0x3D 1#32) [] ∧ 0x3D % 4 ≠ 0) ∧
    (Awaits (withList [.regRead 0x40]) (.regRead 0x40) [] ∧ 0x40 % 4 = 0 ∧ 0x3C < 0x40) ∧
    (Awaits (withList [.memRead 64]) (.memRead 64) [] ∧ fresh.cfg.pmemWords ≤ 64) ∧
    Awaits (withList [.otherWidth 8]) (.otherWidth 8) [] :=
  ⟨⟨⟨rfl, rfl⟩, by decide⟩, ⟨⟨rfl, rfl⟩, by decide⟩, ⟨⟨rfl, rfl⟩, by decide⟩, rfl, rfl⟩

/-- The same address, another one that is Written, and another one that is not. -/
theorem witness_AReadReturnsTheLastWrite :
    Awaits (withList [.memWrite 63 1#32, .memRead 63]) (.memWrite 63 1#32) [.memRead 63] ∧
    (Awaits { withList [.memWrite 63 1#32, .memRead 0] with pmem := [(0, 5#32)] } (.memWrite 63 1#32) [.memRead 0] ∧
      Memory.read [(0, 5#32)] 0 = some 5#32) ∧
    Awaits (withList [.memWrite 63 1#32, .memRead 0]) (.memWrite 63 1#32) [.memRead 0] ∧ 63 < fresh.cfg.pmemWords :=
  ⟨⟨rfl, rfl⟩, ⟨⟨rfl, rfl⟩, rfl⟩, ⟨rfl, rfl⟩, by decide⟩

/-- A state that meets the invariant and takes a step that records an error. -/
theorem witness_StepKeepsTheInvariant :
    StateInv { setUp (0, 1, 1) (1, 1, 1) 0 0 [5] with pending := [.regWrite 0x00 0#32] } ∧
    ∃ t, step { setUp (0, 1, 1) (1, 1, 1) 0 0 [5] with pending := [.regWrite 0x00 0#32] } = .next t ∧ t.status = 0x00000011#32 :=
  ⟨by unfold StateInv; decide, _, rfl, rfl⟩

theorem witness_OnlyTheHostWritesOperandRegisters :
    ∃ t, step (withList [.regWrite 0x3C 7#32]) = .next t ∧ readSlot t .arg3 ≠ readSlot (withList [.regWrite 0x3C 7#32]) .arg3 :=
  ⟨_, rfl, by decide⟩

theorem witness_ResultHoldsTheLastScalarResult :
    ∃ t, step { withList [.regWrite 0x00 5#32] with arg0 := 0x78#32 } = .next t ∧ t.result ≠ fresh.result := ⟨_, rfl, by decide⟩

/-- A step with an action and one without. -/
theorem witness_EachStepTakesOneAction : (∃ t, step (withList [.reset]) = .next t) ∧ ∃ t, step fresh = .next t := ⟨⟨_, rfl⟩, _, rfl⟩

theorem witness_ACompletedRunTookEveryAction :
    ∃ t, runAll (withList [.memWrite 0 9#32, .memRead 0]) = .completed t ∧ t.reads = [9#32] := ⟨_, rfl, rfl⟩

/-- R247: a run from a state with a recorded fault is faulted, with an action and without (log entry 23). -/
theorem test_run_from_a_fault_is_faulted :
    runAll { withList [.reset] with fault := some .unwrittenRead } = .faulted .unwrittenRead ∧
    runAll { fresh with fault := some .unwrittenRead } = .faulted .unwrittenRead := by decide

/-- A reset in the error state with a Written word, and a command that uses SRC. -/
theorem witness_ResetValues : Awaits { inError [.reset] with pmem := [(0, 5#32)] } .reset [] ∧ usesSrc .index = true := ⟨⟨rfl, rfl⟩, rfl⟩

theorem witness_ResetClearsTheRegisters :
    Awaits { inError [.reset] with pmem := [(0, 5#32)] } .reset [] ∧
    Awaits { inError [.powerOn] with pmem := [(0, 5#32)] } .powerOn [] := ⟨⟨rfl, rfl⟩, rfl, rfl⟩

theorem witness_ResetInsideATransformUnwritesDst :
    isTransform .blur = true ∧ InDst (setUp (0, 1, 1) (1, 1, 1) 0 0 [5, 6, 7]) 1 ∧ ¬InDst (setUp (0, 1, 1) (1, 1, 1) 0 0 [5, 6, 7]) 2 := by
  unfold InDst; decide

end Sys2Proof.Tests
end

section
/-!
SUPPORT. Errors written as numbers, and what a reset leaves: the STATUS a failed check records (R203), the first check of every command
that uses SRC (R142, R200), and the registers after a reset (R42, R240). `ResetValues` is settled from these.
-/

namespace Sys2Proof.Machine

/-! ## The STATUS of an error, as a number -/

/-- The word `raise Error(CODE)` builds from shifted fields is the sum of R32's fields, for any word of the command (R203). -/
theorem errorStatus_eq_statusValue (e : ErrCode) (w : Word) : errorStatus e w = statusValue e.ecode (w.toNat % 256) := by
  have he := e.ecode_le
  apply BitVec.eq_of_toNat_eq
  rw [errorStatus_toNat, statusValue, BitVec.toNat_ofNat]
  omega

/-- A command whose checks fail writes the error of the first that fails to STATUS, and nothing else (R202, R203). -/
theorem exec_of_firstError {i : Instr} {s : State} {e : ErrCode} (h : firstError (checksOf i s) = some e) :
    exec i s = .next { s with status := statusValue e.ecode ((encode i).toNat % 256) } := by
  rw [exec_eq, runChecked_some _ s h, raiseError_eq, errorStatus_eq_statusValue]

/-! ## Commands that use SRC -/

/-- INDEX and the transforms begin with the check of the SRC dimensions (R142, R202). -/
theorem checksOf_usesSrc {i : Instr} (h : usesSrc i = true) (s : State) : ∃ l, checksOf i s = checkSrcDim s :: l := by
  cases i with
  | makePixel => cases h
  | getRed => cases h
  | getGreen => cases h
  | getBlue => cases h
  | getAlpha => cases h
  | index => exact ⟨_, rfl⟩
  | squash => exact ⟨_, rfl⟩
  | colorRotate => exact ⟨_, rfl⟩
  | blur => exact ⟨_, rfl⟩
  | expand => exact ⟨_, rfl⟩

/-- BAD_DIM_SRC comes before every other error of a command that uses SRC (R142, R202). -/
theorem firstError_badDimSrc {i : Instr} {s : State} (hi : usesSrc i = true)
    (hd : s.srcWidth.toInt < 1 ∨ s.srcHeight.toInt < 1) : firstError (checksOf i s) = some .badDimSrc := by
  obtain ⟨l, hl⟩ := checksOf_usesSrc hi s
  rw [hl, checkSrcDim, firstError_failIf, srcRaster_width, srcRaster_height, if_pos hd]

/-- With SRC_WIDTH 0, its reset value, a command that uses SRC raises BAD_DIM_SRC (R42). -/
theorem exec_srcWidth_zero {i : Instr} {s : State} (hi : usesSrc i = true) (hw : s.srcWidth = 0#32) :
    exec i s = .next { s with status := statusValue 2 ((encode i).toNat % 256) } :=
  exec_of_firstError (firstError_badDimSrc hi (.inl (by rw [hw]; decide)))

/-! ## Resets -/

/-- R42: every register reads 0 once the registers are at their reset values. -/
@[simp] theorem readSlot_resetRegisters (s : State) (slot : Slot) : readSlot s.resetRegisters slot = 0#32 := by
  cases slot <;> rfl

/-- State.reset is a state whose registers are at their reset values. -/
theorem resetRegisters_reset : State.reset.resetRegisters = State.reset := rfl

/-- The step of a host whose next action is `a` takes it (R246). -/
theorem step_of_awaits {s : State} {a : HostAction} {rest : List HostAction} (h : Awaits s a rest) :
    step s = takeAction a (s.popAction rest) :=
  step_of_pending h.1 h.2

/-- A reset while powered writes the registers and takes the action off the host's list (R240, R246). -/
theorem step_reset {s : State} {rest : List HostAction} (h : Awaits s .reset rest) :
    step s = .next (s.popAction rest).resetRegisters :=
  step_of_awaits h

/-- Settles O51: a reset puts every register at 0 and leaves PMEM and the fault record, and the SRC_WIDTH of 0 it leaves makes every
command that uses SRC raise BAD_DIM_SRC. -/
theorem resetValues : Obligations.ResetValues := by
  refine ⟨fun slot => ?_, rfl, Memory.read_nil, fun s rest h => ?_, fun i hi => exec_srcWidth_zero hi rfl⟩
  · rw [← resetRegisters_reset, readSlot_resetRegisters]
  · have hfault : s.fault = none := h.1
    exact ⟨(s.popAction rest).resetRegisters, step_reset h, readSlot_resetRegisters _, by simp, by simpa using hfault,
      fun i hi => exec_srcWidth_zero hi (by simp)⟩

end Sys2Proof.Machine
end

section
/-!
SUPPORT. The order of a transform's writes, and the memory port: the loop over the cells of a raster in any order leaves the same PMEM
(R76), and the four outcomes of a host access to PMEM (R62, R212, R213). `WriteOrderIsNotObservable` and `MemoryPortReadsAndWrites` are
settled from these.
-/

namespace Sys2Proof.Machine

/-! ## The loop over the cells in another order -/

section AnyOrder

variable {dst : Raster} {cell : Memory → Nat → Nat → Except Fault (Option Word)}

/-- What the cells see does not depend on their order. -/
theorem SeesOnly.perm {src : Nat → Prop} {l l' : List (Nat × Nat)} {m₀ : Memory} (h : SeesOnly dst cell src l m₀)
    (hl : l'.Perm l) : SeesOnly dst cell src l' m₀ where
  reads m hm p hp := h.reads m hm p (hl.mem_iff.mp hp)
  stores p hp := h.stores p (hl.mem_iff.mp hp)

/-- Cells that see only the memory the loop begins with, at addresses all different, leave the same memory in any order (R76): each
address holds the word of the one cell that goes there, or what stood there before. -/
theorem storeCells_perm {src : Nat → Prop} {l l' : List (Nat × Nat)} {m₀ m : Memory} (hs : SeesOnly dst cell src l m₀)
    (hn : (l.map fun p => dst.addr p.1 p.2).Nodup) (hw : m₀.wf = true) (hl : l'.Perm l)
    (h : storeCells dst cell l m₀ = .ok m) : storeCells dst cell l' m₀ = .ok m := by
  have hs' := hs.perm hl
  obtain ⟨hval, hstore, hkeep⟩ := storeCells_spec hs hn (fun _ _ => rfl) h
  obtain ⟨m', h'⟩ := storeCells_total hs' (fun _ _ => rfl) fun p hp => hval p (hl.mem_iff.mp hp)
  obtain ⟨-, hstore', hkeep'⟩ := storeCells_spec hs' ((hl.map _).nodup_iff.mpr hn) (fun _ _ => rfl) h'
  have hread : ∀ a, m'.read a = m.read a := by
    intro a
    by_cases ha : ∃ p ∈ l, ∃ v, cell m₀ p.1 p.2 = .ok (some v) ∧ dst.addr p.1 p.2 = a
    · obtain ⟨p, hp, v, hv, rfl⟩ := ha
      rw [hstore p hp v hv, hstore' p (hl.mem_iff.mpr hp) v hv]
    · push Not at ha
      rw [hkeep a ha, hkeep' a fun p hp => ha p (hl.mem_iff.mp hp)]
  rw [h', Memory.ext_read (storeCells_wf h' hw) (storeCells_wf h hw) hread]

end AnyOrder

/-- The loop of a ready transform over all of DST leaves the same PMEM in any order of the cells (R76). -/
theorem storeCells_dst_perm {s : State} {cell : Memory → Nat → Nat → Except Fault (Option Word)} {l : List (Nat × Nat)} {m : Memory}
    (hr : TransformReady s) (hw : s.pmem.wf = true) (hl : l.Perm (cells s.dstHeight.toNat s.dstWidth.toNat))
    (hc : ReadsSource s cell s.dstHeight.toNat s.dstWidth.toNat)
    (h : storeCells (dstRaster s) cell (cells s.dstHeight.toNat s.dstWidth.toNat) s.pmem = .ok m) :
    storeCells (dstRaster s) cell l s.pmem = .ok m := by
  obtain ⟨hwidth, hheight, -⟩ := hr.2.1
  have hcols : s.dstWidth.toNat ≤ (dstRaster s).cols := (dstRaster_cols hwidth).ge
  have hrows : s.dstHeight.toNat ≤ (dstRaster s).rows := (dstRaster_rows hheight).ge
  exact storeCells_perm (seesOnly_of_ready hr hc hrows hcols) (cellAddrs_nodup hcols) hw hl h

/-- Settles O34: the cells of each transform read SRC alone, so any order of them leaves the PMEM that row-major order leaves. -/
theorem writeOrderIsNotObservable : Obligations.WriteOrderIsNotObservable := by
  intro s l m hr hw hl
  obtain ⟨hwidth, hheight, -⟩ := hr.1
  refine ⟨fun xf yf fill => storeCells_dst_perm hr hw hl (squashCell_readsSource s xf yf fill _ _), fun ew eh => ?_, fun ew eh => ?_⟩
  · have hrows : (srcRaster s).rows = s.dstHeight.toNat := by rw [srcRaster_rows hheight, eh]
    have hcols : (srcRaster s).cols = s.dstWidth.toNat := by rw [srcRaster_cols hwidth, ew]
    exact ⟨storeCells_dst_perm hr hw hl (hrows ▸ hcols ▸ rotateCell_readsSource s),
      fun d => storeCells_dst_perm hr hw hl (hrows ▸ hcols ▸ blurCell_readsSource s d)⟩
  · obtain ⟨hdw, hdh, -⟩ := hr.2.1
    have hrows : s.dstHeight.toNat ≤ 2 * (srcRaster s).rows := by
      rw [← toInt_toNat_of_pos hdh, Raster.rows, srcRaster_height]; omega
    have hcols : s.dstWidth.toNat ≤ 2 * (srcRaster s).cols := by
      rw [← toInt_toNat_of_pos hdw, Raster.cols, srcRaster_width]; omega
    exact storeCells_dst_perm hr hw hl (expandCell_readsSource hrows hcols)

/-! ## The memory port -/

section MemoryPort

variable {s : State} {a : Nat} {v : Word} {rest : List HostAction}

/-- A write below PMEM_WORDS takes the action off the host's list and writes the word (R62). -/
theorem step_memWrite (h : Awaits s (.memWrite a v) rest) (ha : a < s.cfg.pmemWords) :
    step s = .next ((s.popAction rest).setPmem (s.pmem.write a v)) := by
  rw [step_of_awaits h, takeAction, hostMemWrite, if_neg (by simpa using ha), State.popAction_pmem]

/-- A write at or above PMEM_WORDS is refused (R213). -/
theorem step_memWrite_beyond (h : Awaits s (.memWrite a v) rest) (ha : s.cfg.pmemWords ≤ a) :
    step s = .refused .addressBeyondPmem := by
  rw [step_of_awaits h, takeAction, hostMemWrite, if_pos (by simpa using ha)]

/-- A read of a Written word below PMEM_WORDS takes the action off the host's list and returns the word (R62). -/
theorem step_memRead (h : Awaits s (.memRead a) rest) (ha : a < s.cfg.pmemWords) (hv : s.pmem.read a = some v) :
    step s = .next ((s.popAction rest).pushRead v) := by
  simp [step_of_awaits h, takeAction, hostMemRead, ha, hv]

/-- A read of an Unwritten word below PMEM_WORDS is the model fault (R212). -/
theorem step_memRead_unwritten (h : Awaits s (.memRead a) rest) (ha : a < s.cfg.pmemWords) (hn : s.pmem.read a = none) :
    step s = .fault .unwrittenRead := by
  simp [step_of_awaits h, takeAction, hostMemRead, ha, hn]

/-- A read at or above PMEM_WORDS is refused (R213). -/
theorem step_memRead_beyond (h : Awaits s (.memRead a) rest) (ha : s.cfg.pmemWords ≤ a) :
    step s = .refused .addressBeyondPmem := by
  rw [step_of_awaits h, takeAction, hostMemRead, if_pos (by simpa using ha)]

end MemoryPort

/-- Settles O41: the two outcomes of a memory write and the three of a memory read, with the reads of the memory after a write. -/
theorem memoryPortReadsAndWrites : Obligations.MemoryPortReadsAndWrites := by
  intro s a rest
  refine ⟨fun v h => ⟨fun ha => ?_, step_memWrite_beyond h⟩, fun h => ⟨fun ha v hv => step_memRead h ha hv, step_memRead_unwritten h,
    step_memRead_beyond h⟩⟩
  exact ⟨s.pmem.write a v, step_memWrite h ha, Memory.read_write_same .., fun b hb => Memory.read_write_other _ v hb⟩

end Sys2Proof.Machine
end

section
/-!
SUPPORT. The opcode map and command issue: a word decodes to a command exactly when its two fields are those of the command's word
(R91, R94, R96), the words that decode to none (R95), and what a host write to CMD does in each case (R97, R204).
`DecodeIsTheOpcodeMap`, `IllegalWordsRaiseIllegalCmd` and `StepRunsDecodedCommand` are settled from these.
-/

namespace Sys2Proof

/-! ## Which words decode -/

/-- Decoding compares the two fields of a word with those of the command's word: RSV 0, and OPC its opcode (R96). -/
theorem decode_eq_ok_iff {w : Word} {i : Instr} :
    decode w = .ok i ↔ rsvField w = 0#24 ∧ (opcField w).toNat = (opcField (encode i)).toNat := by
  refine ⟨fields_of_decode, fun ⟨hrsv, hopc⟩ => ?_⟩
  have hw : w = encode i := word_ext_fields (BitVec.eq_of_toNat_eq hopc) (hrsv.trans (rsvField_encode i).symm)
  rw [hw, decode_encode]

/-- The opcodes of the ten commands are the numbers 0x01 to 0x0A, without a gap (R94). -/
theorem exists_opcField_encode_iff {n : Nat} : (∃ i, (opcField (encode i)).toNat = n) ↔ 0x01 ≤ n ∧ n ≤ 0x0A := by
  constructor
  · rintro ⟨i, rfl⟩
    cases i <;> decide
  · rintro ⟨hlow, hhigh⟩
    interval_cases n
    · exact ⟨.makePixel, rfl⟩
    · exact ⟨.getRed, rfl⟩
    · exact ⟨.getGreen, rfl⟩
    · exact ⟨.getBlue, rfl⟩
    · exact ⟨.getAlpha, rfl⟩
    · exact ⟨.index, rfl⟩
    · exact ⟨.squash, rfl⟩
    · exact ⟨.colorRotate, rfl⟩
    · exact ⟨.blur, rfl⟩
    · exact ⟨.expand, rfl⟩

/-- The legal words (R95). -/
theorem exists_decode_ok_iff {w : Word} :
    (∃ i, decode w = .ok i) ↔ rsvField w = 0#24 ∧ 0x01 ≤ (opcField w).toNat ∧ (opcField w).toNat ≤ 0x0A := by
  simp only [decode_eq_ok_iff, exists_and_left, eq_comm (a := (opcField w).toNat), exists_opcField_encode_iff]

/-- Decoding is total: a word that is no command is rejected with a reason (R96). -/
theorem exists_decode_error_iff_not_ok {w : Word} : (∃ r, decode w = .error r) ↔ ¬∃ i, decode w = .ok i := by
  cases decode w with
  | error r => simp
  | ok i => simp

/-- The illegal words, by their three cases (R95). -/
theorem exists_decode_error_iff {w : Word} :
    (∃ r, decode w = .error r) ↔ (opcField w).toNat = 0x00 ∨ 0x0B ≤ (opcField w).toNat ∨ rsvField w ≠ 0#24 := by
  rw [exists_decode_error_iff_not_ok, exists_decode_ok_iff]
  by_cases hrsv : rsvField w = 0#24
  · simp only [hrsv, true_and, ne_eq, not_true_eq_false, or_false]
    omega
  · simp [hrsv]

/-- Settles O1: the opcode of each command, as `encode` writes it, is the number the table of R94 gives. -/
theorem decodeIsTheOpcodeMap : Obligations.DecodeIsTheOpcodeMap := by
  intro w i
  rw [decode_eq_ok_iff]
  cases i <;> exact Iff.rfl

end Sys2Proof

namespace Sys2Proof.Machine

/-! ## Command issue -/

section Issue

variable {s : State} {w : Word}

/-- In the error state a command is discarded (R204). -/
theorem issueCommand_of_errFlag (he : errFlag s.status = true) : issueCommand w s = .next s :=
  if_pos he

/-- Outside the error state a legal word is the rule of its command (R97). -/
theorem issueCommand_of_decode_ok {i : Instr} (he : errFlag s.status = false) (hd : decode w = .ok i) :
    issueCommand w s = exec i s := by
  simp [issueCommand, he, hd]

/-- Outside the error state an illegal word records ILLEGAL_CMD with its own low byte as EOPC, and changes nothing else (R95, R97, R203). -/
theorem issueCommand_of_decode_error {r : IllegalWord} (he : errFlag s.status = false) (hd : decode w = .error r) :
    issueCommand w s = .next { s with status := statusValue 1 (w.toNat % 256) } := by
  have hissue : issueCommand w s = .next (raiseError .illegalCmd w s) := by simp [issueCommand, he, hd]
  rw [hissue, raiseError_eq, errorStatus_eq_statusValue, ErrCode.ecode]

/-- The step of a host whose next action writes CMD issues the command, with the action taken (R31, R97). -/
theorem step_cmdWrite {rest : List HostAction} (h : Awaits s (.regWrite 0x00 w) rest) :
    step s = issueCommand w (s.popAction rest) :=
  (step_of_awaits h).trans (takeAction_cmd w _)

end Issue

/-- Settles O5: the step issues the command, in the three cases of a command issue. -/
theorem stepRunsDecodedCommand : Obligations.StepRunsDecodedCommand := by
  intro s w rest h
  rw [step_cmdWrite h]
  exact ⟨issueCommand_of_errFlag (s := s.popAction rest), fun he =>
    ⟨fun _ => issueCommand_of_decode_ok (s := s.popAction rest) he, fun _ => issueCommand_of_decode_error (s := s.popAction rest) he⟩⟩

/-- Settles O2: the words of the three cases are those the decoder rejects, and the step that issues one records ILLEGAL_CMD. -/
theorem illegalWordsRaiseIllegalCmd : Obligations.IllegalWordsRaiseIllegalCmd := by
  refine fun w => ⟨exists_decode_error_iff, fun s rest h he hillegal => ?_⟩
  obtain ⟨r, hd⟩ := exists_decode_error_iff.mpr hillegal
  rw [step_cmdWrite h]
  exact issueCommand_of_decode_error he hd

end Sys2Proof.Machine
end

section
/-!
SUPPORT. The pixel codec: packing as one sum and its inverse `unpack` (R120, R122), and the commands that run no check and write RESULT
alone (R124 to R128). `MakePixelPacksLowBytes`, `GetCommandsExtractChannels` and `PackAndUnpackAreInverse` are settled from these.
-/

namespace Sys2Proof.Machine

/-! ## Packing -/

/-- A packed pixel is the sum of its four bytes, red highest (R120). -/
theorem pack_eq_ofNat (r g b a : Nat) :
    pack r g b a = BitVec.ofNat 32 (r % 256 * 2 ^ 24 + g % 256 * 2 ^ 16 + b % 256 * 2 ^ 8 + a % 256) := by
  apply BitVec.eq_of_toNat_eq
  rw [pack_toNat, BitVec.toNat_ofNat]
  omega

/-- The four channels of a word, each as a byte: the inverse of `pack` (R122). -/
def unpack (p : Word) : Fin 256 × Fin 256 × Fin 256 × Fin 256 :=
  (⟨chR p, chR_lt p⟩, ⟨chG p, chG_lt p⟩, ⟨chB p, chB_lt p⟩, ⟨chA p, chA_lt p⟩)

/-- Unpacking returns the four bytes that were packed: on a byte `pack` does not mask (R122). -/
theorem unpack_pack (r g b a : Fin 256) : unpack (pack r g b a) = (r, g, b, a) := by
  simp [unpack, Nat.mod_eq_of_lt]

/-- Settles O10: `unpack` is a two-sided inverse of `pack` on bytes. -/
theorem packAndUnpackAreInverse : Obligations.PackAndUnpackAreInverse := by
  refine ⟨pack_channels, fun r g b a => ⟨chR_pack .., chG_pack .., chB_pack .., chA_pack ..⟩, ?_⟩
  exact Function.bijective_iff_has_inverse.mpr ⟨unpack, fun _ => unpack_pack .., pack_channels⟩

/-! ## The codec commands -/

/-- A command with no checks that is no transform answers the next state in every state, with RESULT alone written (R124 to R128). -/
theorem exec_of_checksOf_nil {i : Instr} {s : State} {v : Word} (ht : isTransform i = false) (hc : checksOf i s = [])
    (hv : resultOf i s = v) : exec i s = .next { s with result := v } := by
  rw [exec_eq, hc, ht, hv]
  rfl

/-- The opcode of MAKE_PIXEL with RSV not 0 is no command: it records ILLEGAL_CMD with EOPC 0x01 (R95, R124). -/
theorem issueCommand_makePixel_of_rsvField {s : State} {w : Word} (he : errFlag s.status = false) (hopc : (opcField w).toNat = 0x01)
    (hrsv : rsvField w ≠ 0#24) : issueCommand w s = .next { s with status := statusValue 1 0x01 } := by
  obtain ⟨r, hd⟩ := exists_decode_error_iff.mpr (.inr (.inr hrsv))
  rw [issueCommand_of_decode_error he hd, ← opcField_toNat, hopc]

/-- Settles O8: the word MAKE_PIXEL writes is the packing of its four operands, each the low byte of its register. -/
theorem makePixelPacksLowBytes : Obligations.MakePixelPacksLowBytes := by
  refine ⟨decode_encode .makePixel, fun s => exec_of_checksOf_nil rfl rfl ?_, fun s w => issueCommand_makePixel_of_rsvField⟩
  rw [resultOf, pack_eq_ofNat]
  simp only [channelOperand_eq, Nat.mod_mod]

/-- Settles O9: the word each GET command writes is a channel of ARG0, and each channel is a quotient of the word. -/
theorem getCommandsExtractChannels : Obligations.GetCommandsExtractChannels := by
  refine ⟨decode_encode .getRed, decode_encode .getGreen, decode_encode .getBlue, decode_encode .getAlpha, fun s => ⟨?_, ?_, ?_, ?_⟩⟩
  · exact exec_of_checksOf_nil rfl rfl (congrArg zext32 (chR_eq s.arg0))
  · exact exec_of_checksOf_nil rfl rfl (congrArg zext32 (chG_eq s.arg0))
  · exact exec_of_checksOf_nil rfl rfl (congrArg zext32 (chB_eq s.arg0))
  · exact exec_of_checksOf_nil rfl rfl (congrArg zext32 (chA_eq s.arg0))

end Sys2Proof.Machine
end

section
/-!
SUPPORT. The raster buffer: the first error of INDEX, read off the registers (R145, R202), the index it answers (R141, R145), and the cells
of a raster (R147). `IndexAnswersLinearIndex` and `LinearIndexIsABijection` are settled from these.
-/

namespace Sys2Proof.Machine

/-! ## INDEX -/

/-- The checks of INDEX in order, from the registers: dimensions, range, bounds (R142, R145). -/
theorem firstError_index (s : State) :
    firstError (checksOf .index s) =
      if s.srcWidth.toInt < 1 ∨ s.srcHeight.toInt < 1 then some .badDimSrc
      else if (s.srcBase.toNat : Int) + s.srcWidth.toInt * s.srcHeight.toInt > s.cfg.pmemWords then some .rangeSrc
      else if s.arg0.toInt < 0 ∨ s.arg0.toInt ≥ s.srcHeight.toInt ∨ s.arg1.toInt < 0 ∨ s.arg1.toInt ≥ s.srcWidth.toInt then
        some .oobIndex
      else none := by
  simp only [checksOf, checkSrc, List.cons_append, List.nil_append, checkSrcDim, checkSrcRange, checkIndexBounds, firstError_failIf,
    firstError_nil]
  rfl

/-- On a SRC that fits, the bounds of row and column alone decide (R145). -/
theorem firstError_index_of_srcFits {s : State} (hs : SrcFits s) :
    firstError (checksOf .index s) =
      if s.arg0.toInt < 0 ∨ s.arg0.toInt ≥ s.srcHeight.toInt ∨ s.arg1.toInt < 0 ∨ s.arg1.toInt ≥ s.srcWidth.toInt then
        some .oobIndex
      else none := by
  obtain ⟨hw, hh, hrange⟩ := hs
  rw [firstError_index, if_neg (by omega), if_neg (by omega)]

/-- A word of value at least 0 is the same number read either way (R11). -/
theorem toInt_eq_toNat_of_nonneg {v : Word} (h : 0 ≤ v.toInt) : v.toInt = (v.toNat : Int) := by
  apply BitVec.toInt_eq_toNat_of_msb
  rw [BitVec.msb_eq_toInt, decide_eq_false_iff_not]
  omega

/-- Signed order on words of value at least 0 is their unsigned order (R11). -/
theorem toNat_lt_toNat_of_toInt_lt {u v : Word} (hu : 0 ≤ u.toInt) (h : u.toInt < v.toInt) : u.toNat < v.toNat := by
  have hv : 0 ≤ v.toInt := by omega
  rw [toInt_eq_toNat_of_nonneg hu, toInt_eq_toNat_of_nonneg hv] at h
  exact Int.ofNat_lt.mp h

/-- On a width of at least 1 and a row and column of at least 0, INDEX computes `lin` of its operands' values (R141, R145). -/
theorem resultOf_index {s : State} (hw : 1 ≤ s.srcWidth.toInt) (h0 : 0 ≤ s.arg0.toInt) (h1 : 0 ≤ s.arg1.toInt) :
    resultOf .index s = zext32 (lin s.srcWidth.toNat s.arg0.toNat s.arg1.toNat) := by
  simp only [resultOf, srcRaster_cols hw, sint, toInt_eq_toNat_of_nonneg h0, toInt_eq_toNat_of_nonneg h1, Int.toNat_natCast]

/-- The linear index of a cell of a SRC that fits is below PMEM_WORDS, whatever SRC_BASE is (R142, R145). -/
theorem lin_lt_pmemWords {s : State} (hs : SrcFits s) {row col : Nat} (hr : row < s.srcHeight.toNat) (hc : col < s.srcWidth.toNat) :
    lin s.srcWidth.toNat row col < s.cfg.pmemWords := by
  obtain ⟨hw, hh, hrange⟩ := hs
  rw [toInt_eq_toNat_of_pos hw, toInt_eq_toNat_of_pos hh] at hrange
  have hlin := lin_lt hr hc
  norm_cast at hrange
  omega

/-- A command that is no transform and passes its checks writes its word to RESULT, and nothing else (R35). -/
theorem exec_of_firstError_none {i : Instr} {s : State} (ht : isTransform i = false) (h : firstError (checksOf i s) = none) :
    exec i s = .next { s with result := resultOf i s } := by
  rw [exec_eq]
  exact runChecked_ok s h (by rw [ht]; rfl)

/-- Settles O12: the first error of INDEX in each of the four cases, and the index it computes when there is none. -/
theorem indexAnswersLinearIndex : Obligations.IndexAnswersLinearIndex := by
  refine ⟨decode_encode .index, fun s => ⟨fun hs hr0 hr hc0 hc => ?_, fun hdim => ?_, fun hw hh hrange => ?_, fun hs hout => ?_⟩⟩
  · have hpass : firstError (checksOf .index s) = none := by
      rw [firstError_index_of_srcFits hs, if_neg (by omega)]
    refine ⟨?_, lin_lt_pmemWords hs (toNat_lt_toNat_of_toInt_lt hr0 hr) (toNat_lt_toNat_of_toInt_lt hc0 hc)⟩
    have ⟨hw, _, _⟩ := hs
    rw [exec_of_firstError_none rfl hpass, resultOf_index hw hr0 hc0]
    rfl
  · exact exec_of_firstError (e := .badDimSrc) (firstError_badDimSrc rfl hdim)
  · exact exec_of_firstError (e := .rangeSrc) (by rw [firstError_index, if_neg (by omega), if_pos hrange])
  · exact exec_of_firstError (e := .oobIndex) (by rw [firstError_index_of_srcFits hs, if_pos hout])

/-! ## Row-major indexing -/

/-- The cells of a raster are numbered by `lin`, each number below `w * h` once (R147). -/
theorem bijOn_lin (w h : Nat) :
    Set.BijOn (fun p : Nat × Nat => lin w p.1 p.2) {p | p.1 < h ∧ p.2 < w} {k | k < w * h} := by
  refine ⟨fun p ⟨hr, hc⟩ => lin_lt hr hc, fun p ⟨_, hc⟩ q ⟨_, hc'⟩ heq => ?_, fun k hk => ?_⟩
  · exact Prod.ext_iff.mpr (lin_injective hc hc' heq)
  · obtain ⟨hr, hc, hlin⟩ := exists_lin hk
    exact ⟨(k / w, k % w), ⟨hr, hc⟩, hlin⟩

/-- Moving down one row adds the width (R147). -/
theorem lin_succ_row (w row col : Nat) : lin w (row + 1) col = lin w row col + w := by
  simp only [lin, Nat.add_mul, Nat.one_mul, Nat.add_right_comm]

/-- Settles O13: `lin` maps the cells into the range, one to one, with quotient and remainder by `w` as the inverse; the next column is
the next number by the definition of `lin`. -/
theorem linearIndexIsABijection : Obligations.LinearIndexIsABijection :=
  fun w h => ⟨bijOn_lin w h, fun _ _ _ => rfl, lin_succ_row w⟩

end Sys2Proof.Machine
end

section
/-!
SUPPORT. Transforms in general: the checks they share find the error of the smallest code (R202), and what the loop leaves at each cell of
DST (R63, R75). Then SQUASH: its checks, its cells from the registers (R160, R161), and a DST that lies in range (R162).
`SquashSamplesPoints` and `SquashOfTheRightSizeIgnoresFill` are settled from these.
-/

namespace Sys2Proof.Machine

/-! ## The first error of a transform -/

/-- One check of a list in rising order of codes: it reports the first error, or the first error is left to the checks after it (R202). -/
theorem FirstViolation.firstError_failIf {i : Instr} {s : State} {e c : ErrCode} {p : Prop} [Decidable p] {l : List (Option ErrCode)}
    (h : FirstViolation i s e) (hp : p ↔ Violates i s c) (hc : c.ecode ≤ e.ecode)
    (hl : c.ecode < e.ecode → firstError l = some e) : firstError (failIf p c :: l) = some e := by
  obtain ⟨hviolates, hfirst⟩ := h
  rw [Machine.firstError_failIf]
  rcases hc.eq_or_lt with heq | hlt
  · obtain rfl := ErrCode.ecode_injective heq
    rw [if_pos (hp.mpr hviolates)]
  · rw [if_neg (mt hp.mp (hfirst c hlt)), hl hlt]

/-- A transform uses SRC (R142). -/
theorem usesSrc_of_isTransform {i : Instr} : isTransform i = true → usesSrc i = true := by
  cases i <;> decide

/-- No command has a cause of ILLEGAL_CMD, so the smallest code of a cause is that of BAD_DIM_SRC (R200). -/
theorem badDimSrc_ecode_le_of_violates {i : Instr} {s : State} {e : ErrCode} (h : Violates i s e) :
    ErrCode.badDimSrc.ecode ≤ e.ecode := by
  cases e with
  | illegalCmd => exact h.elim
  | _ => decide

/-- The shared checks of a transform report its first error, unless that is one of its own checks' (R142, R144, R202). -/
theorem FirstViolation.firstError_transformChecks {i : Instr} {s : State} {e : ErrCode} {l : List (Option ErrCode)}
    (ht : isTransform i = true) (h : FirstViolation i s e) (hl : ErrCode.aliasRegions.ecode < e.ecode → firstError l = some e) :
    firstError (transformChecks s ++ l) = some e := by
  have hsrc := usesSrc_of_isTransform ht
  refine h.firstError_failIf (by simp only [Violates, hsrc, true_and]; rfl) (badDimSrc_ecode_le_of_violates h.1) fun h2 => ?_
  refine h.firstError_failIf (by simp only [Violates, hsrc, true_and]; rfl) h2 fun h3 => ?_
  refine h.firstError_failIf (by simp only [Violates, ht, true_and]; rfl) h3 fun h4 => ?_
  refine h.firstError_failIf (by simp only [Violates, ht, true_and]; rfl) h4 fun h5 => ?_
  refine h.firstError_failIf ?_ h5 hl
  have hsd := h.2 .badDimSrc h2
  have hdd := h.2 .badDimDst h4
  simp only [Violates, hsrc, ht, true_and, not_or, not_lt] at hsd hdd ⊢
  exact alias_iff hsd.1 hsd.2 hdd.1 hdd.2

/-! ## What a transform leaves in DST -/

/-- Different cells of DST are different words (R147). -/
theorem dstAddr_injective {s : State} {row col row' col' : Nat} (hc : col < s.dstWidth.toNat) (hc' : col' < s.dstWidth.toNat)
    (h : dstAddr s row col = dstAddr s row' col') : row = row' ∧ col = col' :=
  lin_injective hc hc' (Nat.add_left_cancel h)

/-- A source cell lies in SRC (R141). -/
theorem inSrc_srcAddr {s : State} (hs : SrcFits s) {row col : Nat} (hr : row < s.srcHeight.toNat) (hc : col < s.srcWidth.toNat) :
    InSrc s (srcAddr s row col) := by
  rw [← srcRegion_iff hs, ← srcRaster_addr hs.1]
  exact Raster.region_addr (by rwa [srcRaster_rows hs.2.1]) (by rwa [srcRaster_cols hs.1])

/-- A transform that passes its checks, with a value for every cell, leaves in a cell the word of that value, or what stood there if the
value is no write, and every word outside DST as it was (R63, R75). -/
theorem exec_transform_reads {i : Instr} {s : State} (ht : isTransform i = true) (h : firstError (checksOf i s) = none)
    (hv : ∀ row col, row < s.dstHeight.toNat → col < s.dstWidth.toNat → ∃ o, cellOf i s s.pmem row col = .ok o) :
    ∃ m, exec i s = .next (s.setPmem m) ∧
      (∀ row col o, row < s.dstHeight.toNat → col < s.dstWidth.toNat → cellOf i s s.pmem row col = .ok o →
        m.read (dstAddr s row col) = o.or (s.pmem.read (dstAddr s row col))) ∧
      ∀ a, ¬InDst s a → m.read a = s.pmem.read a := by
  obtain ⟨⟨-, hd, -⟩, -⟩ := transform_passed ht h
  obtain ⟨m, hexec, hstore, hkeep⟩ := exec_transform ht h hv
  refine ⟨m, hexec, fun row col o hr hc ho => ?_, fun a ha => hkeep a ?_⟩
  · cases o with
    | some v => exact hstore row col v hr hc ho
    | none =>
      refine hkeep _ fun row' col' v _ hc' hv' heq => ?_
      obtain ⟨rfl, rfl⟩ := dstAddr_injective hc' hc heq
      rw [ho] at hv'
      cases hv'
  · rintro row col v hr hc - rfl
    exact ha (inDst_dstAddr hd hr hc)

/-! ## SQUASH -/

/-- The one cause of an error SQUASH has beyond those the shared checks find is that of BAD_PARAM (R160, R200). -/
theorem eq_badParam_of_violates_squash {s : State} {e : ErrCode} (h : Violates .squash s e)
    (hown : ErrCode.aliasRegions.ecode < e.ecode) : e = .badParam := by
  cases e with
  | badParam => rfl
  | dimMismatch => simp [Violates] at h
  | oobIndex => simp [Violates] at h
  | _ => exact absurd hown (by decide)

/-- The first error of SQUASH that has its cause is the one its checks report (R160, R202). -/
theorem firstError_squash_of_firstViolation {s : State} {e : ErrCode} (h : FirstViolation .squash s e) :
    firstError (checksOf .squash s) = some e := by
  refine h.firstError_transformChecks rfl fun hown => ?_
  obtain rfl := eq_badParam_of_violates_squash h.1 hown
  exact h.firstError_failIf (by simp [Violates, sint]) le_rfl fun hlt => absurd hlt (lt_irrefl _)

/-- Cell (row, col) of SQUASH is in range: its source pixel lies in the SRC bounds (R160). -/
abbrev SampleInRange (s : State) (row col : Nat) : Prop :=
  row * s.arg1.toNat < s.srcHeight.toNat ∧ col * s.arg0.toNat < s.srcWidth.toNat

/-- The address of the source pixel of cell (row, col) of SQUASH (R160). -/
abbrev sampleAddr (s : State) (row col : Nat) : Nat := srcAddr s (row * s.arg1.toNat) (col * s.arg0.toNat)

section Squash

variable {s : State} (hr : TransformReady s) (h0 : 1 ≤ s.arg0.toInt) (h1 : 1 ≤ s.arg1.toInt)
include hr h0 h1

/-- With both factors at least 1, SQUASH has no further check (R160). -/
theorem firstError_squash_of_ready : firstError (checksOf .squash s) = none := by
  have hfactors : ¬(sint s.arg0 < 1 ∨ sint s.arg1 < 1) := by simp only [sint]; omega
  rw [checksOf, firstError_transform hr, checkFactors, firstError_failIf, if_neg hfactors, firstError_nil]

/-- A cell of SQUASH, from the registers (R160, R161). -/
theorem cellOf_squash (m : Memory) (row col : Nat) :
    cellOf .squash s m row col =
      if SampleInRange s row col then written (engineRead m (sampleAddr s row col))
      else .ok (squashFill s.cfg.squashOobFill) := by
  obtain ⟨⟨hw, hh, -⟩, -⟩ := hr
  rw [cellOf, squashCell, srcRaster_rows hh, srcRaster_cols hw, sourcePixel, srcRaster_addr hw, sint, sint, toInt_toNat_of_pos h0,
    toInt_toNat_of_pos h1]

/-- What SQUASH leaves when every sampled pixel is Written: the sampled pixel in a cell in range, the fill in another one, and the words
outside DST as they were (R160, R161). -/
theorem exec_squash_reads
    (hw : ∀ row col, row < s.dstHeight.toNat → col < s.dstWidth.toNat → SampleInRange s row col →
      ∃ v, s.pmem.read (sampleAddr s row col) = some v) :
    ∃ m, exec .squash s = .next (s.setPmem m) ∧
      (∀ row col, row < s.dstHeight.toNat → col < s.dstWidth.toNat →
        m.read (dstAddr s row col) =
          if SampleInRange s row col then s.pmem.read (sampleAddr s row col)
          else (squashFill s.cfg.squashOobFill).or (s.pmem.read (dstAddr s row col))) ∧
      ∀ a, ¬InDst s a → m.read a = s.pmem.read a := by
  have hcell : ∀ row col, row < s.dstHeight.toNat → col < s.dstWidth.toNat → cellOf .squash s s.pmem row col =
      .ok (if SampleInRange s row col then s.pmem.read (sampleAddr s row col) else squashFill s.cfg.squashOobFill) := by
    intro row col hrow hcol
    rw [cellOf_squash hr h0 h1]
    split
    · next hin =>
      obtain ⟨v, hv⟩ := hw row col hrow hcol hin
      simp [engineRead, hv]
    · rfl
  obtain ⟨m, hexec, hread, hout⟩ := exec_transform_reads (i := .squash) rfl (firstError_squash_of_ready hr h0 h1)
    fun row col hrow hcol => ⟨_, hcell row col hrow hcol⟩
  refine ⟨m, hexec, fun row col hrow hcol => ?_, hout⟩
  rw [hread row col _ hrow hcol (hcell row col hrow hcol)]
  split
  · next hin =>
    obtain ⟨v, hv⟩ := hw row col hrow hcol hin
    rw [hv, Option.some_or]
  · rfl

end Squash

/-- Settles O14: what SQUASH leaves in each cell, with the two fills of an out-of-range cell told apart, and the error of the first cause. -/
theorem squashSamplesPoints : Obligations.SquashSamplesPoints := by
  refine ⟨decode_encode .squash, fun s hr h0 h1 hw => ?_, fun s e h =>
    exec_of_firstError (firstError_squash_of_firstViolation h)⟩
  obtain ⟨m, hexec, hread, hout⟩ := exec_squash_reads hr h0 h1 fun row col hrow hcol ⟨hin, hin'⟩ => hw row col hrow hcol hin hin'
  refine ⟨m, hexec, fun row col hrow hcol => ?_, hout⟩
  rw [hread row col hrow hcol]
  cases s.cfg.squashOobFill with
  | keep => rfl
  | zero => rfl

/-! ## SQUASH into a DST in range -/

/-- The cells in range along one axis are those below the quotient rounded up (R162). -/
theorem mul_lt_iff_lt_ceil {n f k : Nat} (hf : 1 ≤ f) : k * f < n ↔ k < (n + f - 1) / f := by
  rw [Nat.lt_iff_add_one_le, Nat.lt_iff_add_one_le, Nat.le_div_iff_mul_le hf, Nat.add_one_mul]
  omega

/-- If every cell of DST is in range and SRC is Written, SQUASH leaves the sampled pixel in every cell (R162). -/
theorem exec_squash_of_inRange {s : State} (hr : TransformReady s) (h0 : 1 ≤ s.arg0.toInt) (h1 : 1 ≤ s.arg1.toInt)
    (hw : SrcWritten s) (hin : ∀ row col, row < s.dstHeight.toNat → col < s.dstWidth.toNat → SampleInRange s row col) :
    ∃ t, exec .squash s = .next t ∧ ∀ row col, row < s.dstHeight.toNat → col < s.dstWidth.toNat →
      t.pmem.read (dstAddr s row col) = s.pmem.read (sampleAddr s row col) := by
  obtain ⟨m, hexec, hread, -⟩ := exec_squash_reads hr h0 h1 fun row col _ _ ⟨hrow, hcol⟩ => hw _ (inSrc_srcAddr hr.1 hrow hcol)
  exact ⟨s.setPmem m, hexec, fun row col hrow hcol => (hread row col hrow hcol).trans (if_pos (hin row col hrow hcol))⟩

/-- Settles O15: a DST no larger than the quotients has all its cells in range, under either fill, and a memory that differs in DST alone
has the same SRC, since the regions are disjoint. -/
theorem squashOfTheRightSizeIgnoresFill : Obligations.SquashOfTheRightSizeIgnoresFill := by
  refine ⟨fun n f k => mul_lt_iff_lt_ceil, ?_⟩
  rintro s s' fill m rfl hm hr h0 h1 hw hheight hwidth
  have hf0 : 1 ≤ s.arg0.toNat := by rw [toInt_eq_toNat_of_pos h0] at h0; omega
  have hf1 : 1 ≤ s.arg1.toNat := by rw [toInt_eq_toNat_of_pos h1] at h1; omega
  have hin : ∀ row col, row < s.dstHeight.toNat → col < s.dstWidth.toNat → SampleInRange s row col := fun row col hrow hcol =>
    ⟨(mul_lt_iff_lt_ceil hf1).mpr (hrow.trans_le hheight), (mul_lt_iff_lt_ceil hf0).mpr (hcol.trans_le hwidth)⟩
  have ⟨hsrc, _, hdisjoint⟩ := hr
  have hsame : ∀ a, InSrc s a → m.read a = s.pmem.read a := fun a ha => hm a fun hd => hdisjoint a ⟨ha, hd⟩
  obtain ⟨t, ht, hread⟩ := exec_squash_of_inRange hr h0 h1 hw hin
  obtain ⟨t', ht', hread'⟩ := exec_squash_of_inRange
    (s := { s with cfg := { s.cfg with squashOobFill := fill }, pmem := m }) hr h0 h1
    (fun a ha => by simpa only [hsame a ha] using hw a ha) hin
  refine ⟨t, t', ht, ht', fun row col hrow hcol => ⟨hread row col hrow hcol, (hread' row col hrow hcol).trans (hsame _ ?_)⟩⟩
  obtain ⟨hsrow, hscol⟩ := hin row col hrow hcol
  exact inSrc_srcAddr hsrc hsrow hscol

end Sys2Proof.Machine
end

section
/-!
SUPPORT. COLOR_ROTATE: the check of equal sizes (R171, R182), the checks of the command, and its cells from the registers (R170, R171).
`ColorRotatePermutesChannels` is settled from these.
-/

namespace Sys2Proof.Machine

/-! ## DST of the size of SRC -/

/-- Rasters of one size pass the check of equal sizes (R171, R182). -/
theorem firstError_checkSameSize_of_eq {s : State} (hw : s.dstWidth = s.srcWidth) (hh : s.dstHeight = s.srcHeight)
    (l : List (Option ErrCode)) : firstError (checkSameSize s :: l) = firstError l := by
  rw [checkSameSize, firstError_failIf, dstRaster_width, dstRaster_height, srcRaster_width, srcRaster_height, hw, hh, if_neg (by simp)]

/-- The check of equal sizes reports the first error of COLOR_ROTATE and BLUR if that is DIM_MISMATCH, and leaves a later one to the
checks after it (R171, R182, R202). -/
theorem FirstViolation.firstError_checkSameSize {i : Instr} {s : State} {e : ErrCode} {l : List (Option ErrCode)}
    (hi : i = .colorRotate ∨ i = .blur) (h : FirstViolation i s e) (hc : ErrCode.dimMismatch.ecode ≤ e.ecode)
    (hl : ErrCode.dimMismatch.ecode < e.ecode → firstError l = some e) : firstError (checkSameSize s :: l) = some e := by
  have hexpand : i ≠ .expand := by rcases hi with rfl | rfl <;> decide
  refine h.firstError_failIf ?_ hc hl
  simp [Violates, hi, hexpand, dstRaster_width, dstRaster_height, srcRaster_width, srcRaster_height]

/-! ## COLOR_ROTATE -/

/-- The one cause of an error COLOR_ROTATE has beyond those the shared checks find is that of DIM_MISMATCH (R171, R200). -/
theorem eq_dimMismatch_of_violates_colorRotate {s : State} {e : ErrCode} (h : Violates .colorRotate s e)
    (hown : ErrCode.aliasRegions.ecode < e.ecode) : e = .dimMismatch := by
  cases e with
  | dimMismatch => rfl
  | badParam => simp [Violates] at h
  | oobIndex => simp [Violates] at h
  | _ => exact absurd hown (by decide)

/-- The first error of COLOR_ROTATE that has its cause is the one its checks report (R171, R202). -/
theorem firstError_colorRotate_of_firstViolation {s : State} {e : ErrCode} (h : FirstViolation .colorRotate s e) :
    firstError (checksOf .colorRotate s) = some e := by
  refine h.firstError_transformChecks rfl fun hown => ?_
  obtain rfl := eq_dimMismatch_of_violates_colorRotate h.1 hown
  exact h.firstError_checkSameSize (.inl rfl) le_rfl fun hlt => absurd hlt (lt_irrefl _)

/-- A cell of COLOR_ROTATE on a Written SRC is its source pixel rotated (R170, R171). -/
theorem cellOf_colorRotate {s : State} (hs : SrcFits s) (hw : SrcWritten s) {row col : Nat} (hrow : row < s.srcHeight.toNat)
    (hcol : col < s.srcWidth.toNat) : cellOf .colorRotate s s.pmem row col = .ok (some (rot (srcPixel s row col))) := by
  have ⟨hwidth, hheight, _⟩ := hs
  exact rotateCell_ok (sourcePixel_of_written hs hw (by rwa [srcRaster_rows hheight]) (by rwa [srcRaster_cols hwidth]))

section ColorRotate

variable {s : State} (hr : TransformReady s) (ew : s.dstWidth = s.srcWidth) (eh : s.dstHeight = s.srcHeight)
include hr ew eh

/-- On rasters of one size COLOR_ROTATE has no further check (R171). -/
theorem firstError_colorRotate_of_ready : firstError (checksOf .colorRotate s) = none := by
  rw [checksOf, firstError_transform hr, firstError_checkSameSize_of_eq ew eh, firstError_nil]

/-- What COLOR_ROTATE leaves on a Written SRC: in each cell its source pixel rotated, and the words outside DST as they were (R171). -/
theorem exec_colorRotate_reads (hw : SrcWritten s) :
    ∃ m, exec .colorRotate s = .next (s.setPmem m) ∧
      (∀ row col, row < s.srcHeight.toNat → col < s.srcWidth.toNat →
        m.read (dstAddr s row col) = some (rot (srcPixel s row col))) ∧
      ∀ a, ¬InDst s a → m.read a = s.pmem.read a := by
  have hcell : ∀ row col, row < s.dstHeight.toNat → col < s.dstWidth.toNat →
      cellOf .colorRotate s s.pmem row col = .ok (some (rot (srcPixel s row col))) := by
    rw [ew, eh]
    exact fun row col => cellOf_colorRotate hr.1 hw
  obtain ⟨m, hexec, hread, hout⟩ := exec_transform_reads (i := .colorRotate) rfl (firstError_colorRotate_of_ready hr ew eh)
    fun row col hrow hcol => ⟨_, hcell row col hrow hcol⟩
  rw [ew, eh] at hread
  exact ⟨m, hexec, fun row col hrow hcol => hread row col _ hrow hcol (cellOf_colorRotate hr.1 hw hrow hcol), hout⟩

end ColorRotate

/-- Settles O16: each cell of DST holds `rot` of its source pixel, whose channels are the permuted ones, and the checks report the error
of the first cause. -/
theorem colorRotatePermutesChannels : Obligations.ColorRotatePermutesChannels := by
  refine ⟨decode_encode .colorRotate, fun s hr ew eh hw => ?_, fun s e h =>
    exec_of_firstError (firstError_colorRotate_of_firstViolation h)⟩
  obtain ⟨m, hexec, hread, hout⟩ := exec_colorRotate_reads hr ew eh hw
  exact ⟨m, hexec, fun row col hrow hcol =>
    ⟨rot (srcPixel s row col), hread row col hrow hcol, chR_rot _, chG_rot _, chB_rot _, chA_rot _⟩, hout⟩

end Sys2Proof.Machine
end

section
/-!
SUPPORT. BLUR: the checks of the command (R182), and its cells from the registers, as means over the window of R180 (R181).
`BlurAveragesTheWindow` is settled from these.
-/

namespace Sys2Proof.Machine

/-! ## The checks of BLUR -/

/-- The largest code of a cause of BLUR is that of BAD_PARAM (R200). -/
theorem ecode_le_badParam_of_violates_blur {s : State} {e : ErrCode} (h : Violates .blur s e) :
    e.ecode ≤ ErrCode.badParam.ecode := by
  cases e with
  | oobIndex => simp [Violates] at h
  | _ => decide

/-- The first error of BLUR that has its cause is the one its checks report: the shared checks, then that of the sizes, then that of
blurDist, in rising order of codes (R182, R202). -/
theorem firstError_blur_of_firstViolation {s : State} {e : ErrCode} (h : FirstViolation .blur s e) :
    firstError (checksOf .blur s) = some e := by
  refine h.firstError_transformChecks rfl fun hown => h.firstError_checkSameSize (.inr rfl) hown fun hlater => ?_
  exact h.firstError_failIf (by simp [Violates, sint]) hlater fun hlt =>
    absurd (ecode_le_badParam_of_violates_blur h.1) (Nat.not_le_of_lt hlt)

/-! ## The cells of BLUR -/

/-- `q` is the pixel BLUR computes for cell (row, col): the means of red, green and blue over the window, the centre's own alpha (R181). -/
def IsBlurPixel (s : State) (row col : Nat) (q : Word) : Prop :=
  chR q = laneMean s chR (blurWindow s s.arg0.toInt row col) ∧
  chG q = laneMean s chG (blurWindow s s.arg0.toInt row col) ∧
  chB q = laneMean s chB (blurWindow s s.arg0.toInt row col) ∧
  chA q = chA (srcPixel s row col)

section Blur

variable {s : State} (hd : 0 ≤ s.arg0.toInt)
include hd

/-- With a blurDist of at least 0, a cell of BLUR inside the bounds of a Written SRC is its blur pixel (R180, R181). -/
theorem cellOf_blur (hs : SrcFits s) (hw : SrcWritten s) {row col : Nat} (hrow : row < s.srcHeight.toNat)
    (hcol : col < s.srcWidth.toNat) : ∃ q, cellOf .blur s s.pmem row col = .ok (some q) ∧ IsBlurPixel s row col q := by
  have ⟨hwidth, hheight, _⟩ := hs
  rw [← srcRaster_rows hheight] at hrow
  rw [← srcRaster_cols hwidth] at hcol
  obtain ⟨q, hq, hmean, halpha⟩ := blurCell_ok (d := (sint s.arg0).toNat) hrow hcol fun r c => sourcePixel_of_written hs hw
  rw [windowCells_toFinset hs _ hrow hcol, sint, Int.toNat_of_nonneg hd] at hmean
  exact ⟨q, hq, hmean chR (by simp), hmean chG (by simp), hmean chB (by simp), halpha⟩

variable (hr : TransformReady s) (ew : s.dstWidth = s.srcWidth) (eh : s.dstHeight = s.srcHeight)
include hr ew eh

/-- On rasters of one size, with a blurDist of at least 0, BLUR has no further check (R182). -/
theorem firstError_blur_of_ready : firstError (checksOf .blur s) = none := by
  have hdist : ¬sint s.arg0 < 0 := not_lt.mpr hd
  rw [checksOf, firstError_transform hr, firstError_checkSameSize_of_eq ew eh, checkDistance, firstError_failIf, if_neg hdist,
    firstError_nil]

/-- What BLUR leaves on a Written SRC: in each cell its blur pixel, and the words outside DST as they were (R182). -/
theorem exec_blur_reads (hw : SrcWritten s) :
    ∃ m, exec .blur s = .next (s.setPmem m) ∧
      (∀ row col, row < s.srcHeight.toNat → col < s.srcWidth.toNat →
        ∃ q, m.read (dstAddr s row col) = some q ∧ IsBlurPixel s row col q) ∧
      ∀ a, ¬InDst s a → m.read a = s.pmem.read a := by
  have hcell : ∀ row col, row < s.dstHeight.toNat → col < s.dstWidth.toNat →
      ∃ q, cellOf .blur s s.pmem row col = .ok (some q) ∧ IsBlurPixel s row col q := by
    rw [ew, eh]
    exact fun row col => cellOf_blur hd hr.1 hw
  obtain ⟨m, hexec, hread, hout⟩ := exec_transform_reads (i := .blur) rfl (firstError_blur_of_ready hd hr ew eh)
    fun row col hrow hcol => (hcell row col hrow hcol).imp' some fun _ h => h.1
  rw [ew, eh] at hcell hread
  refine ⟨m, hexec, fun row col hrow hcol => ?_, hout⟩
  obtain ⟨q, hq, hpixel⟩ := hcell row col hrow hcol
  exact ⟨q, hread row col _ hrow hcol hq, hpixel⟩

end Blur

/-- Settles O19: each cell of DST holds the means over the pixels of its window, with the alpha of its centre, and the checks report the
error of the first cause. -/
theorem blurAveragesTheWindow : Obligations.BlurAveragesTheWindow :=
  ⟨decode_encode .blur, fun _ hr ew eh hd hw => exec_blur_reads hd hr ew eh hw,
    fun _ _ h => exec_of_firstError (firstError_blur_of_firstViolation h)⟩

end Sys2Proof.Machine
end

section
/-!
SUPPORT. EXPAND: the checks of the command (R191), and its cells from the registers, as means over the candidates of R190.
`ExpandInterpolates` is settled from these.
-/

namespace Sys2Proof.Machine

/-! ## The checks of EXPAND -/

/-- The largest code of a cause of EXPAND is that of DIM_MISMATCH (R200). -/
theorem ecode_le_dimMismatch_of_violates_expand {s : State} {e : ErrCode} (h : Violates .expand s e) :
    e.ecode ≤ ErrCode.dimMismatch.ecode := by
  cases e with
  | badParam => simp [Violates] at h
  | oobIndex => simp [Violates] at h
  | _ => decide

/-- The first error of EXPAND that has its cause is the one its checks report: the shared checks, then that of the double size (R191,
R202). -/
theorem firstError_expand_of_firstViolation {s : State} {e : ErrCode} (h : FirstViolation .expand s e) :
    firstError (checksOf .expand s) = some e := by
  refine h.firstError_transformChecks rfl fun hown => ?_
  refine h.firstError_failIf (c := .dimMismatch) ?_ hown fun hlt =>
    absurd (ecode_le_dimMismatch_of_violates_expand h.1) (Nat.not_le_of_lt hlt)
  simp [Violates, dstRaster_width, dstRaster_height, srcRaster_width, srcRaster_height]

/-! ## The cells of EXPAND -/

/-- `q` is the pixel EXPAND computes for cell (i, j): in all four lanes, the mean over the candidates (R190). -/
def IsExpandPixel (s : State) (i j : Nat) (q : Word) : Prop :=
  chR q = laneMean s chR (expandWindow s i j) ∧
  chG q = laneMean s chG (expandWindow s i j) ∧
  chB q = laneMean s chB (expandWindow s i j) ∧
  chA q = laneMean s chA (expandWindow s i j)

/-- A cell of EXPAND, below twice the size of a Written SRC in each axis, is its interpolated pixel (R190). -/
theorem cellOf_expand {s : State} (hs : SrcFits s) (hw : SrcWritten s) {i j : Nat} (hi : i < 2 * s.srcHeight.toNat)
    (hj : j < 2 * s.srcWidth.toNat) : ∃ q, cellOf .expand s s.pmem i j = .ok (some q) ∧ IsExpandPixel s i j q := by
  have ⟨hwidth, hheight, _⟩ := hs
  have hrow : i / 2 < (srcRaster s).rows := by rw [srcRaster_rows hheight]; omega
  have hcol : j / 2 < (srcRaster s).cols := by rw [srcRaster_cols hwidth]; omega
  obtain ⟨q, hq, hmean⟩ := expandCell_ok hrow hcol fun r c => sourcePixel_of_written hs hw
  rw [candidates_toFinset hs hrow hcol] at hmean
  exact ⟨q, hq, hmean chR (by simp), hmean chG (by simp), hmean chB (by simp), hmean chA (by simp)⟩

/-- A word that is twice one of at least 1 by its signed value is so by its unsigned value (R11, R191). -/
theorem toNat_eq_two_mul_of_toInt {u v : Word} (hv : 1 ≤ v.toInt) (h : u.toInt = 2 * v.toInt) : u.toNat = 2 * v.toNat := by
  have hu : 1 ≤ u.toInt := by omega
  rw [toInt_eq_toNat_of_pos hu, toInt_eq_toNat_of_pos hv] at h
  exact_mod_cast h

section Expand

variable {s : State} (hr : TransformReady s) (ew : s.dstWidth.toInt = 2 * s.srcWidth.toInt)
  (eh : s.dstHeight.toInt = 2 * s.srcHeight.toInt)
include hr ew eh

/-- With a DST of twice the size of SRC in each axis, EXPAND has no further check (R191). -/
theorem firstError_expand_of_ready : firstError (checksOf .expand s) = none := by
  rw [checksOf, firstError_transform hr, checkDoubleSize, firstError_failIf, dstRaster_width, dstRaster_height, srcRaster_width,
    srcRaster_height, ew, eh, if_neg (by simp), firstError_nil]

/-- What EXPAND leaves on a Written SRC: in each cell its interpolated pixel, and the words outside DST as they were (R191). -/
theorem exec_expand_reads (hw : SrcWritten s) :
    ∃ m, exec .expand s = .next (s.setPmem m) ∧
      (∀ i j, i < 2 * s.srcHeight.toNat → j < 2 * s.srcWidth.toNat →
        ∃ q, m.read (dstAddr s i j) = some q ∧ IsExpandPixel s i j q) ∧
      ∀ a, ¬InDst s a → m.read a = s.pmem.read a := by
  have ⟨hs, _, _⟩ := hr
  have ⟨hwidth, hheight, _⟩ := hs
  have hrows := toNat_eq_two_mul_of_toInt hheight eh
  have hcols := toNat_eq_two_mul_of_toInt hwidth ew
  have hcell : ∀ i j, i < s.dstHeight.toNat → j < s.dstWidth.toNat →
      ∃ q, cellOf .expand s s.pmem i j = .ok (some q) ∧ IsExpandPixel s i j q := by
    rw [hrows, hcols]
    exact fun i j => cellOf_expand hs hw
  obtain ⟨m, hexec, hread, hout⟩ := exec_transform_reads (i := .expand) rfl (firstError_expand_of_ready hr ew eh)
    fun i j hi hj => (hcell i j hi hj).imp' some fun _ h => h.1
  rw [← hrows, ← hcols]
  refine ⟨m, hexec, fun i j hi hj => ?_, hout⟩
  obtain ⟨q, hq, hpixel⟩ := hcell i j hi hj
  exact ⟨q, hread i j _ hi hj hq, hpixel⟩

end Expand

/-- Settles O23: each cell of DST holds the means in all four lanes over the candidates its parity names, and the checks report the error
of the first cause. -/
theorem expandInterpolates : Obligations.ExpandInterpolates :=
  ⟨decode_encode .expand, fun _ hr ew eh hw => exec_expand_reads hr ew eh hw,
    fun _ _ h => exec_of_firstError (firstError_expand_of_firstViolation h)⟩

end Sys2Proof.Machine
end

section
/-!
SUPPORT. Errors: what `raise Error(CODE)` records (R203), and which error a command reports (R200, R202).
`ErrorEntryRecordsInStatusAlone` and `FirstFailingCheckIsReported` are settled from these.
-/

namespace Sys2Proof.Machine

/-! ## Error entry -/

/-- The reserved bits of a legal STATUS are 0 (R32). -/
theorem reservedBits_of_statusLegal {st : Word} (h : statusLegal st = true) : st.extractLsb 3 1 = 0#3 ∧ st.extractLsb 31 16 = 0#16 := by
  simp only [statusLegal, Bool.and_eq_true, beq_iff_eq] at h
  exact h.1

/-- Settles O27: the STATUS of an error is a sum whose fields are the code and the low byte of the word, and it is legal. -/
theorem errorEntryRecordsInStatusAlone : Obligations.ErrorEntryRecordsInStatusAlone := fun e w _ =>
  ⟨rfl, errorStatus_eq_statusValue e w, errFlag_errorStatus e w, ecodeField_errorStatus e w, eopcField_errorStatus e w,
    reservedBits_of_statusLegal (statusLegal_errorStatus e w)⟩

/-! ## The first failing check -/

/-- Only a command that uses SRC has a cause of an error (R200). -/
theorem usesSrc_of_violates {i : Instr} {s : State} {e : ErrCode} (h : Violates i s e) : usesSrc i = true := by
  cases e with
  | illegalCmd => exact h.elim
  | badDimSrc => exact h.1
  | rangeSrc => exact h.1
  | badDimDst => exact usesSrc_of_isTransform h.1
  | rangeDst => exact usesSrc_of_isTransform h.1
  | aliasRegions => exact usesSrc_of_isTransform h.1
  | dimMismatch => obtain ⟨rfl | rfl, -⟩ | ⟨rfl, -⟩ := h <;> rfl
  | badParam => obtain ⟨rfl, -⟩ | ⟨rfl, -⟩ := h <;> rfl
  | oobIndex => obtain ⟨rfl, -⟩ := h; rfl

/-- The check of SRC reports the first error of a command that uses it, unless that is one of the checks' after it (R142, R202). -/
theorem FirstViolation.firstError_checkSrc {i : Instr} {s : State} {e : ErrCode} {l : List (Option ErrCode)} (hi : usesSrc i = true)
    (h : FirstViolation i s e) (hl : ErrCode.rangeSrc.ecode < e.ecode → firstError l = some e) :
    firstError (checkSrc s ++ l) = some e := by
  refine h.firstError_failIf (by simp only [Violates, hi, true_and]; rfl) (badDimSrc_ecode_le_of_violates h.1) fun hrange => ?_
  exact h.firstError_failIf (by simp only [Violates, hi, true_and]; rfl) hrange hl

/-- The one cause of an error INDEX has beyond those the check of SRC finds is that of OOB_INDEX (R145, R200). -/
theorem eq_oobIndex_of_violates_index {s : State} {e : ErrCode} (h : Violates .index s e) (hown : ErrCode.rangeSrc.ecode < e.ecode) :
    e = .oobIndex := by
  cases e with
  | oobIndex => rfl
  | badDimDst => simp [Violates, isTransform] at h
  | rangeDst => simp [Violates, isTransform] at h
  | aliasRegions => simp [Violates, isTransform] at h
  | dimMismatch => simp [Violates] at h
  | badParam => simp [Violates] at h
  | _ => exact absurd hown (by decide)

/-- The first error of INDEX that has its cause is the one its checks report (R145, R202). -/
theorem firstError_index_of_firstViolation {s : State} {e : ErrCode} (h : FirstViolation .index s e) :
    firstError (checksOf .index s) = some e := by
  refine h.firstError_checkSrc rfl fun hown => ?_
  obtain rfl := eq_oobIndex_of_violates_index h.1 hown
  exact h.firstError_failIf (by simp [Violates, sint, srcRaster_width, srcRaster_height]) le_rfl fun hlt => absurd hlt (lt_irrefl _)

/-- Of the errors whose cause holds, the checks of a command report the one of the smallest code (R202). -/
theorem firstError_of_firstViolation {i : Instr} {s : State} {e : ErrCode} (h : FirstViolation i s e) :
    firstError (checksOf i s) = some e := by
  have hsrc := usesSrc_of_violates h.1
  cases i with
  | makePixel => cases hsrc
  | getRed => cases hsrc
  | getGreen => cases hsrc
  | getBlue => cases hsrc
  | getAlpha => cases hsrc
  | index => exact firstError_index_of_firstViolation h
  | squash => exact firstError_squash_of_firstViolation h
  | colorRotate => exact firstError_colorRotate_of_firstViolation h
  | blur => exact firstError_blur_of_firstViolation h
  | expand => exact firstError_expand_of_firstViolation h

/-! ## A command without a cause of an error -/

section NoCause

variable {i : Instr} {s : State} (h : ∀ e, ¬Violates i s e)
include h

/-- A command that uses SRC and has no cause of an error has a SRC that fits (R142, R200). -/
theorem srcFits_of_not_violates (hi : usesSrc i = true) : SrcFits s := by
  have hdim := h .badDimSrc
  have hrange := h .rangeSrc
  simp only [Violates, hi, true_and, not_or, not_lt] at hdim hrange
  exact ⟨hdim.1, hdim.2, hrange⟩

/-- A transform with no cause of an error is ready (R142, R144, R200). -/
theorem transformReady_of_not_violates (ht : isTransform i = true) : TransformReady s := by
  have hdim := h .badDimDst
  have hrange := h .rangeDst
  have halias := h .aliasRegions
  simp only [Violates, ht, true_and, not_or, not_lt, not_exists] at hdim hrange halias
  exact ⟨srcFits_of_not_violates h (usesSrc_of_isTransform ht), ⟨hdim.1, hdim.2, hrange⟩, halias⟩

/-- COLOR_ROTATE and BLUR with no cause of an error have rasters of one size (R171, R182). -/
theorem sameSize_of_not_violates (hi : i = .colorRotate ∨ i = .blur) : s.dstWidth = s.srcWidth ∧ s.dstHeight = s.srcHeight := by
  have hsize := h .dimMismatch
  simp only [Violates, hi, true_and, not_or, not_not] at hsize
  exact ⟨BitVec.eq_of_toInt_eq hsize.1.1, BitVec.eq_of_toInt_eq hsize.1.2⟩

/-- A command with no cause of an error passes its checks (R202). -/
theorem firstError_of_not_violates : firstError (checksOf i s) = none := by
  cases i with
  | makePixel => rfl
  | getRed => rfl
  | getGreen => rfl
  | getBlue => rfl
  | getAlpha => rfl
  | index => rw [firstError_index_of_srcFits (srcFits_of_not_violates h rfl), if_neg fun hout => h .oobIndex ⟨rfl, hout⟩]
  | squash =>
    have hfactors : ¬(s.arg0.toInt < 1 ∨ s.arg1.toInt < 1) := fun hlow => h .badParam (.inl ⟨rfl, hlow⟩)
    exact firstError_squash_of_ready (transformReady_of_not_violates h rfl) (by omega) (by omega)
  | colorRotate =>
    obtain ⟨ew, eh⟩ := sameSize_of_not_violates h (.inl rfl)
    exact firstError_colorRotate_of_ready (transformReady_of_not_violates h rfl) ew eh
  | blur =>
    obtain ⟨ew, eh⟩ := sameSize_of_not_violates h (.inr rfl)
    have hdist : ¬s.arg0.toInt < 0 := fun hneg => h .badParam (.inr ⟨rfl, hneg⟩)
    exact firstError_blur_of_ready (not_lt.mp hdist) (transformReady_of_not_violates h rfl) ew eh
  | expand =>
    have hsize : ¬(s.dstWidth.toInt ≠ 2 * s.srcWidth.toInt ∨ s.dstHeight.toInt ≠ 2 * s.srcHeight.toInt) := fun hne =>
      h .dimMismatch (.inr ⟨rfl, hne⟩)
    exact firstError_expand_of_ready (transformReady_of_not_violates h rfl) (by omega) (by omega)

end NoCause

/-- A command that passes its checks leaves STATUS, or stops at an Unwritten pixel (R202, R212). -/
theorem exec_status_of_firstError_none {i : Instr} {s : State} (h : firstError (checksOf i s) = none) :
    (∃ t, exec i s = .next t ∧ t.status = s.status) ∨ exec i s = .fault .unwrittenRead := by
  rcases exec_outcomes i s with ⟨e, he, -⟩ | ⟨-, -, hx⟩ | ⟨-, -, -, m, hx, -⟩ | ⟨-, -, -, hx, -⟩
  · rw [h] at he
    cases he
  · exact .inl ⟨_, hx, State.setResult_status ..⟩
  · exact .inl ⟨_, hx, State.setPmem_status ..⟩
  · exact .inr hx

/-- The causes of errors are read off the registers, so a change of PMEM changes none (R202). -/
theorem violates_pmem_iff (i : Instr) (s : State) (m : Memory) (e : ErrCode) : Violates i { s with pmem := m } e ↔ Violates i s e := by
  cases e <;> exact Iff.rfl

/-- Settles O26: the checks report the first error that has its cause, and pass if none has; an illegal word is rejected by the decoder. -/
theorem firstFailingCheckIsReported : Obligations.FirstFailingCheckIsReported :=
  ⟨fun _ _ _ he hd => issueCommand_of_decode_error he hd, fun _ _ _ h => exec_of_firstError (firstError_of_firstViolation h),
    fun _ _ h => exec_status_of_firstError_none (firstError_of_not_violates h), violates_pmem_iff⟩

end Sys2Proof.Machine
end

section
/-!
SUPPORT. The error state: the host accesses that neither depend on STATUS nor change it, those that reach STATUS or CMD (R204, R205), and
what a step does to STATUS while an error is recorded (R206). `CommandsAreDiscardedInErrorState` and `TheFirstErrorIsKept` are settled from
these.
-/

namespace Sys2Proof.Machine

/-! ## Accesses that STATUS does not affect -/

/-- A host access that reaches neither CMD nor STATUS: what it does depends on STATUS in no way (R204). The resets, which write STATUS,
are none of these. -/
def HostAction.AvoidsStatus : HostAction → Prop
  | .regWrite off _ => off ≠ Slot.cmd.offset ∧ off ≠ Slot.status.offset
  | .regRead off => off ≠ Slot.status.offset
  | .memWrite _ _ => True
  | .memRead _ => True
  | .otherWidth _ => True
  | .reset => False
  | .powerOn => False

/-- An outcome with another STATUS in its next state, if it has one. -/
def withStatus (v : Word) : Host.Outcome State Fault Refusal → Host.Outcome State Fault Refusal
  | .next t => .next (t.setStatus v)
  | .fault f => .fault f
  | .refused r => .refused r

/-- A write to a slot other than CMD and STATUS neither depends on STATUS nor changes it (R61, R204). -/
theorem writeSlot_setStatus {slot : Slot} (hcmd : slot ≠ .cmd) (hstatus : slot ≠ .status) (w v : Word) (s : State) :
    writeSlot w (s.setStatus v) slot = withStatus v (writeSlot w s slot) := by
  cases slot with
  | cmd => exact absurd rfl hcmd
  | status => exact absurd rfl hstatus
  | _ => rfl

/-- A read of a slot other than STATUS does not depend on it (R61). -/
theorem readSlot_setStatus {slot : Slot} (h : slot ≠ .status) (s : State) (v : Word) :
    readSlot (s.setStatus v) slot = readSlot s slot := by
  cases slot with
  | status => exact absurd rfl h
  | _ => rfl

/-- An access that avoids STATUS does the same whatever STATUS holds, and leaves it (R204). -/
theorem takeAction_setStatus {a : HostAction} (h : a.AvoidsStatus) (s : State) (v : Word) :
    takeAction a (s.setStatus v) = withStatus v (takeAction a s) := by
  cases a with
  | regWrite off w =>
    obtain ⟨hcmd, hstatus⟩ := h
    simp only [takeAction, regWrite]
    cases hslot : slotAt off with
    | error r => rfl
    | ok slot =>
      obtain rfl := slotAt_eq_ok.mp hslot
      exact writeSlot_setStatus (mt (congrArg Slot.offset) hcmd) (mt (congrArg Slot.offset) hstatus) w v s
  | regRead off =>
    simp only [takeAction, regRead]
    cases hslot : slotAt off with
    | error r => rfl
    | ok slot =>
      obtain rfl := slotAt_eq_ok.mp hslot
      simp only [readSlot_setStatus (mt (congrArg Slot.offset) h)]
      rfl
  | memWrite addr w =>
    simp only [takeAction, hostMemWrite, State.setStatus_cfg, apply_ite (withStatus v)]
    rfl
  | memRead addr =>
    simp only [takeAction, hostMemRead, State.setStatus_cfg, State.setStatus_pmem, apply_ite (withStatus v)]
    cases s.pmem.read addr <;> rfl
  | otherWidth bits => rfl
  | reset => exact h.elim
  | powerOn => exact h.elim

/-- An access that avoids STATUS leaves it (R204). -/
theorem takeAction_status_of_avoidsStatus {a : HostAction} {s t : State} (h : a.AvoidsStatus) (ht : takeAction a s = .next t) :
    t.status = s.status := by
  have hsame : takeAction a s = withStatus s.status (takeAction a s) := takeAction_setStatus h s s.status
  rw [ht] at hsame
  injection hsame with hsame
  rw [hsame, State.setStatus_status]

/-- A step whose access avoids STATUS does the same whatever STATUS holds (R204, R246). -/
theorem step_setStatus {s : State} {a : HostAction} {rest : List HostAction} (h : Awaits s a rest) (ha : a.AvoidsStatus) (v : Word) :
    step (s.setStatus v) = withStatus v (step s) := by
  rw [step_of_awaits h, step_of_awaits (s := s.setStatus v) h]
  exact takeAction_setStatus ha (s.popAction rest) v

/-! ## Accesses to STATUS and CMD -/

/-- Bit 0 of a written word, as its parity, decides whether STATUS is cleared (R32, R205). -/
theorem statusAfterWrite_eq (st v : Word) : statusAfterWrite st v = if v.toNat % 2 = 1 then 0x00000000#32 else st := by
  have hbit : (v.getLsbD 0 = true) = (v.toNat % 2 = 1) := by rw [← errFlag, errFlag_eq, decide_eq_true_eq]
  simp only [statusAfterWrite, hbit]

/-- A host write to STATUS clears it or leaves it, and changes nothing else (R205). -/
theorem step_statusWrite {s : State} {v : Word} {rest : List HostAction} (h : Awaits s (.regWrite 0x04 v) rest) :
    step s = .next ((s.popAction rest).setStatus (if v.toNat % 2 = 1 then 0x00000000#32 else s.status)) := by
  rw [← statusAfterWrite_eq]
  exact step_of_awaits h

/-- In the error state the step that writes CMD discards the command (R204). -/
theorem step_cmdWrite_of_errFlag {s : State} {w : Word} {rest : List HostAction} (h : Awaits s (.regWrite 0x00 w) rest)
    (he : errFlag s.status = true) : step s = .next (s.popAction rest) :=
  (step_cmdWrite h).trans (issueCommand_of_errFlag he)

/-- Settles O7: a write to CMD is discarded, STATUS is read and cleared in every state, and every other access avoids STATUS. -/
theorem commandsAreDiscardedInErrorState : Obligations.CommandsAreDiscardedInErrorState := by
  refine ⟨fun s w rest h he => step_cmdWrite_of_errFlag h he, fun s rest h => step_of_awaits h, fun s v rest h => step_statusWrite h,
    fun s v a rest h ha => ?_⟩
  have havoids : a.AvoidsStatus := by
    cases a with
    | otherWidth bits => exact ha.elim
    | _ => exact ha
  rw [← State.setStatus, step_setStatus h havoids]
  cases step s <;> rfl

/-! ## The first error -/

/-- In the error state an action leaves STATUS, but for a write of an odd value to STATUS and the resets, which clear it (R206). -/
theorem takeAction_status_of_errFlag {a : HostAction} {s t : State} (he : errFlag s.status = true) (ht : takeAction a s = .next t) :
    t.status = s.status ∨
    (t.status = 0x00000000#32 ∧ ((∃ v, a = .regWrite 0x04 v ∧ v.getLsbD 0 = true) ∨ a = .reset ∨ a = .powerOn)) := by
  by_cases havoids : a.AvoidsStatus
  · exact .inl (takeAction_status_of_avoidsStatus havoids ht)
  cases a with
  | regWrite off v =>
    by_cases hcmd : off = 0x00
    · subst hcmd
      rw [takeAction_cmd, issueCommand_of_errFlag he] at ht
      cases ht
      exact .inl rfl
    · obtain rfl : off = 0x04 := by by_contra hstatus; exact havoids ⟨hcmd, hstatus⟩
      cases ht
      by_cases hv : v.getLsbD 0 = true
      · exact .inr ⟨if_pos hv, .inl ⟨v, rfl, hv⟩⟩
      · exact .inl (if_neg hv)
  | regRead off =>
    obtain rfl : off = 0x04 := not_not.mp havoids
    cases ht
    exact .inl rfl
  | memWrite addr v => exact absurd trivial havoids
  | memRead addr => exact absurd trivial havoids
  | otherWidth bits => cases ht
  | reset =>
    cases ht
    exact .inr ⟨rfl, .inr (.inl rfl)⟩
  | powerOn =>
    cases ht
    exact .inr ⟨rfl, .inr (.inr rfl)⟩

/-- Settles O29: in the error state a step is idle or takes an action, and the only actions that change STATUS clear it. -/
theorem theFirstErrorIsKept : Obligations.TheFirstErrorIsKept := by
  intro s t he ht
  rcases step_cases s with ⟨f, -, hx⟩ | ⟨-, -, hx⟩ | ⟨a, rest, -, hp, hx⟩
  · rw [hx] at ht
    cases ht
  · rw [hx] at ht
    cases ht
    exact .inl rfl
  · rw [hx] at ht
    rcases takeAction_status_of_errFlag (s := s.popAction rest) he ht with hkept | ⟨hzero, hcause⟩
    · exact .inl hkept
    · refine .inr ⟨hzero, ?_⟩
      rcases hcause with ⟨v, rfl, hv⟩ | rfl | rfl
      · exact .inl ⟨v, rest, hp, hv⟩
      · exact .inr (.inl ⟨rest, hp⟩)
      · exact .inr (.inr ⟨rest, hp⟩)

end Sys2Proof.Machine
end

section
/-!
SUPPORT. The command word and its load: encoding and decoding undo each other (R94, R96), and the word placed for the next step is the
word the step issues (R31, R97). `EncodeAndDecodeAreInverse`, `TableWordsDecode` and `WithFetchWordRunsTheCommand` are settled from these.
-/

namespace Sys2Proof

/-- A word that decodes has the two fields of its command's word, so it is that word (R94). -/
theorem encode_eq_of_decode {w : Word} {i : Instr} (h : decode w = .ok i) : encode i = w := by
  obtain ⟨hrsv, hopc⟩ := decode_eq_ok_iff.mp h
  exact (word_ext_fields (BitVec.eq_of_toNat_eq hopc) (hrsv.trans (rsvField_encode i).symm)).symm

/-- Settles O3: each command has one word, the one whose fields the decoder compares. -/
theorem encodeAndDecodeAreInverse : Obligations.EncodeAndDecodeAreInverse :=
  fun i _ => ⟨encode_eq_of_decode, fun h => h ▸ decode_encode i⟩

/-- A row of the table with all 32 bits is the word of that number (R92). -/
theorem tableWord_toNat (w : Word) : tableWord 32 w.toNat = w := by
  rw [tableWord, Nat.mod_eq_of_lt w.isLt, BitVec.ofNat_toNat, BitVec.setWidth_eq]

/-- The row of a command decodes to it (R94). -/
theorem decodeTableWord_encode (i : Instr) : decodeTableWord 32 (encode i).toNat = some i := by
  simp [decodeTableWord, tableWord_toNat]

/-- Settles O4: ten rows are the words of the ten commands, and the other three words are illegal by their OPC or RSV. -/
theorem tableWordsDecode : Obligations.TableWordsDecode :=
  ⟨decodeTableWord_encode .makePixel, decodeTableWord_encode .getRed, decodeTableWord_encode .getGreen,
    decodeTableWord_encode .getBlue, decodeTableWord_encode .getAlpha, decodeTableWord_encode .index, decodeTableWord_encode .squash,
    decodeTableWord_encode .colorRotate, decodeTableWord_encode .blur, decodeTableWord_encode .expand, by decide, by decide, by decide⟩

end Sys2Proof

namespace Sys2Proof.Machine

/-- The host whose command word has been placed awaits the write of that word to CMD (R31). -/
theorem awaits_withFetchWord {s : State} (hf : s.fault = none) (w : Word) :
    Awaits (s.withFetchWord 32 w.toNat) (.regWrite 0x00 w) s.pending := by
  rw [State.withFetchWord, tableWord_toNat]
  exact ⟨hf, State.withCommand_pending ..⟩

/-- Settles O6: the placed word decodes to its command, so outside the error state the next step is the command's rule. -/
theorem withFetchWordRunsTheCommand : Obligations.WithFetchWordRunsTheCommand := fun s i hf he =>
  (step_cmdWrite (awaits_withFetchWord hf (encode i))).trans
    (issueCommand_of_decode_ok (s := { s with position := s.position + 1 }) he (decode_encode i))

end Sys2Proof.Machine
end

section
/-!
SUPPORT. What one host action does, said once: the registers a host write stores (R61), and every outcome of an action (R61, R62, R97,
R212, R213, R240). Then what every step keeps. `StepKeepsTheInvariant` is settled from these.
-/

namespace Sys2Proof.Machine

/-! ## The answers of a command -/

/-- Everything a command that answers a next state has done: recorded an error, written RESULT, or written words of DST. -/
theorem exec_next_cases {i : Instr} {s t : State} (h : exec i s = .next t) :
    (∃ e, firstError (checksOf i s) = some e ∧ t = raiseError e (encode i) s) ∨
    (isTransform i = false ∧ firstError (checksOf i s) = none ∧ t = s.setResult (resultOf i s)) ∨
    (isTransform i = true ∧ firstError (checksOf i s) = none ∧ TransformReady s ∧
      ∃ m, t = s.setPmem m ∧ (s.pmem.wf = true → m.wf = true) ∧
        (s.pmem.inside s.cfg.pmemWords = true → m.inside s.cfg.pmemWords = true) ∧ ∀ a, ¬InDst s a → m.read a = s.pmem.read a) := by
  rcases exec_outcomes i s with ⟨e, he, hx⟩ | ⟨hi, hn, hx⟩ | ⟨hi, hn, hr, m, hx, hm⟩ | ⟨-, -, -, hx, -⟩ <;> rw [hx] at h <;> cases h
  · exact .inl ⟨e, he, rfl⟩
  · exact .inr (.inl ⟨hi, hn, rfl⟩)
  · exact .inr (.inr ⟨hi, hn, hr, m, rfl, hm⟩)

/-- A command keeps the invariant: an error leaves a legal STATUS, a transform a canonical PMEM inside the address space. -/
theorem stateInv_of_exec {i : Instr} {s t : State} (hs : StateInv s) (h : exec i s = .next t) : StateInv t := by
  obtain ⟨hwf, hinside, hlegal⟩ := hs
  obtain ⟨e, -, rfl⟩ | ⟨-, -, rfl⟩ | ⟨-, -, -, m, rfl, hm, hin, -⟩ := exec_next_cases h
  · exact ⟨hwf, hinside, statusLegal_errorStatus ..⟩
  · exact ⟨hwf, hinside, hlegal⟩
  · exact ⟨hm hwf, hin hinside, hlegal⟩

/-! ## Host writes to the registers -/

/-- The registers that a host write stores to: the descriptors and ARG0 to ARG3 (R33, R34). -/
def operandSlots : List Slot :=
  [.srcBase, .srcWidth, .srcHeight, .dstBase, .dstWidth, .dstHeight, .arg0, .arg1, .arg2, .arg3]

/-- The state after a host write to a register other than CMD and STATUS: RESULT and the reserved slots ignore it (R35, R36). -/
def State.storeSlot (s : State) (slot : Slot) (v : Word) : State :=
  match slot with
  | .srcBase => { s with srcBase := v }
  | .srcWidth => { s with srcWidth := v }
  | .srcHeight => { s with srcHeight := v }
  | .dstBase => { s with dstBase := v }
  | .dstWidth => { s with dstWidth := v }
  | .dstHeight => { s with dstHeight := v }
  | .arg0 => { s with arg0 := v }
  | .arg1 => { s with arg1 := v }
  | .arg2 => { s with arg2 := v }
  | .arg3 => { s with arg3 := v }
  | .cmd | .status | .result | .reserved0C | .reserved1C | .reserved2C => s

section StoreSlot

variable (s : State) (slot : Slot) (v : Word)

@[simp] theorem State.storeSlot_status : (s.storeSlot slot v).status = s.status := by cases slot <;> rfl
@[simp] theorem State.storeSlot_result : (s.storeSlot slot v).result = s.result := by cases slot <;> rfl
@[simp] theorem State.storeSlot_pmem : (s.storeSlot slot v).pmem = s.pmem := by cases slot <;> rfl
@[simp] theorem State.storeSlot_fault : (s.storeSlot slot v).fault = s.fault := by cases slot <;> rfl
@[simp] theorem State.storeSlot_cfg : (s.storeSlot slot v).cfg = s.cfg := by cases slot <;> rfl
@[simp] theorem State.storeSlot_pending : (s.storeSlot slot v).pending = s.pending := by cases slot <;> rfl
@[simp] theorem State.storeSlot_position : (s.storeSlot slot v).position = s.position := by cases slot <;> rfl

/-- A register that is stored to holds the value, and every other register is as before. -/
theorem readSlot_storeSlot (slot' : Slot) :
    readSlot (s.storeSlot slot v) slot' = if slot' = slot ∧ slot ∈ operandSlots then v else readSlot s slot' := by
  cases slot <;> cases slot' <;> rfl

/-- A host write to a slot other than CMD and STATUS stores the value there (R61). -/
theorem writeSlot_eq_storeSlot {slot : Slot} (hcmd : slot ≠ .cmd) (hstatus : slot ≠ .status) :
    writeSlot v s slot = .next (s.storeSlot slot v) := by
  cases slot with
  | cmd => exact absurd rfl hcmd
  | status => exact absurd rfl hstatus
  | _ => rfl

end StoreSlot

/-! ## Every outcome of a host action -/

/-- Every outcome of an action in state `s`, one constructor for each rule of the spec (`takeAction_outcome`). -/
inductive ActionOutcome (s : State) : HostAction → Host.Outcome State Fault Refusal → Prop
  /-- in the error state a command is discarded (R204) -/
  | discard (w : Word) (he : errFlag s.status = true) : ActionOutcome s (.regWrite 0x00 w) (.next s)
  /-- an illegal word records ILLEGAL_CMD (R95, R203) -/
  | illegal (w : Word) (he : errFlag s.status = false) (hd : ∀ i, decode w ≠ .ok i) :
      ActionOutcome s (.regWrite 0x00 w) (.next (raiseError .illegalCmd w s))
  /-- a legal word runs the rule of its command (R97) -/
  | command (w : Word) (i : Instr) (o : Host.Outcome State Fault Refusal) (he : errFlag s.status = false) (hd : decode w = .ok i)
      (ho : exec i s = o) : ActionOutcome s (.regWrite 0x00 w) o
  /-- a write to STATUS clears it or leaves it (R32, R205) -/
  | statusWrite (v : Word) : ActionOutcome s (.regWrite 0x04 v) (.next (s.setStatus (statusAfterWrite s.status v)))
  /-- a write to another slot stores the value, or is ignored (R33 to R36) -/
  | store (slot : Slot) (v : Word) (hcmd : slot ≠ .cmd) (hstatus : slot ≠ .status) :
      ActionOutcome s (.regWrite slot.offset v) (.next (s.storeSlot slot v))
  /-- a register read returns the slot's value (R61) -/
  | regRead (slot : Slot) : ActionOutcome s (.regRead slot.offset) (.next (s.pushRead (readSlot s slot)))
  /-- a memory write below PMEM_WORDS (R62) -/
  | memWrite (a : Nat) (v : Word) (ha : a < s.cfg.pmemWords) : ActionOutcome s (.memWrite a v) (.next (s.setPmem (s.pmem.write a v)))
  /-- a memory read of a Written word (R62) -/
  | memRead (a : Nat) (v : Word) (ha : a < s.cfg.pmemWords) (hv : s.pmem.read a = some v) :
      ActionOutcome s (.memRead a) (.next (s.pushRead v))
  /-- a memory read of an Unwritten word (R77, R212) -/
  | unwritten (a : Nat) (ha : a < s.cfg.pmemWords) (hn : s.pmem.read a = none) : ActionOutcome s (.memRead a) (.fault .unwrittenRead)
  /-- a reset while powered (R240) -/
  | reset : ActionOutcome s .reset (.next s.resetRegisters)
  /-- a power-on reset (R42, R240) -/
  | powerOn : ActionOutcome s .powerOn (.next s.powerOn)
  /-- an access the block gives no meaning to (R213) -/
  | refused (a : HostAction) (r : Refusal) (ha : a.wellFormed s.cfg = false) : ActionOutcome s a (.refused r)

/-- An offset without a slot is one that the register port refuses (R61, R213). -/
theorem offsetOk_of_slotAt_error {off : Nat} {r : Refusal} (h : slotAt off = .error r) : offsetOk off = false := by
  rcases slotAt_eq_error.mp h with ⟨h4, -⟩ | ⟨-, hhigh, -⟩
  · simp [offsetOk, h4]
  · simp [offsetOk, hhigh]

/-- A host write to a slot issues a command, clears or leaves STATUS, or stores the value (R31 to R36). -/
theorem writeSlot_outcome (slot : Slot) (v : Word) (s : State) : ActionOutcome s (.regWrite slot.offset v) (writeSlot v s slot) := by
  by_cases hcmd : slot = .cmd
  · subst hcmd
    show ActionOutcome s (.regWrite 0x00 v) (issueCommand v s)
    rcases issueCommand_cases v s with ⟨he, hx⟩ | ⟨he, hd, hx⟩ | ⟨he, i, hd, hx⟩ <;> rw [hx]
    · exact .discard v he
    · exact .illegal v he hd
    · exact .command v i _ he hd rfl
  by_cases hstatus : slot = .status
  · subst hstatus
    exact .statusWrite v
  rw [writeSlot_eq_storeSlot s v hcmd hstatus]
  exact .store slot v hcmd hstatus

/-- Every action has one of the outcomes listed. -/
theorem takeAction_outcome (a : HostAction) (s : State) : ActionOutcome s a (takeAction a s) := by
  cases a with
  | regWrite off v =>
    rw [takeAction, regWrite]
    cases hslot : slotAt off with
    | error r => exact .refused _ r (offsetOk_of_slotAt_error hslot)
    | ok slot =>
      obtain rfl := slotAt_eq_ok.mp hslot
      exact writeSlot_outcome slot v s
  | regRead off =>
    rw [takeAction, regRead]
    cases hslot : slotAt off with
    | error r => exact .refused _ r (offsetOk_of_slotAt_error hslot)
    | ok slot =>
      obtain rfl := slotAt_eq_ok.mp hslot
      exact .regRead slot
  | memWrite a v =>
    rw [takeAction, hostMemWrite]
    split
    · next ha => exact .refused _ _ (by simpa [HostAction.wellFormed, addressOk] using ha)
    · next ha => exact .memWrite a v (not_le.mp ha)
  | memRead a =>
    rw [takeAction, hostMemRead]
    split
    · next ha => exact .refused _ _ (by simpa [HostAction.wellFormed, addressOk] using ha)
    · next ha =>
      cases hv : s.pmem.read a with
      | none => exact .unwritten a (not_le.mp ha) hv
      | some v => exact .memRead a v (not_le.mp ha) hv
  | otherWidth bits => exact .refused _ _ rfl
  | reset => exact .reset
  | powerOn => exact .powerOn

/-- A step that answers a next state found no action, or took the first one (R217, R246); either way no fault was recorded. -/
theorem step_next_cases {s t : State} (h : step s = .next t) :
    s.fault = none ∧ ((s.pending = [] ∧ t = s) ∨
      ∃ a rest, s.pending = a :: rest ∧ ActionOutcome (s.popAction rest) a (.next t)) := by
  rcases step_cases s with ⟨f, -, hx⟩ | ⟨hf, hp, hx⟩ | ⟨a, rest, hf, hp, hx⟩
  · rw [hx] at h
    cases h
  · rw [hx] at h
    cases h
    exact ⟨hf, .inl ⟨hp, rfl⟩⟩
  · rw [hx] at h
    exact ⟨hf, .inr ⟨a, rest, hp, h ▸ takeAction_outcome a _⟩⟩

/-! ## The invariant -/

/-- The invariant speaks of PMEM, the parameters and STATUS alone, so the state with these the same has it too. -/
theorem StateInv.congr {s t : State} (h : StateInv s) (hp : t.pmem = s.pmem) (hc : t.cfg = s.cfg) (hs : t.status = s.status) :
    StateInv t := by
  rwa [StateInv, hp, hc, hs]

/-- An action keeps the invariant. -/
theorem ActionOutcome.stateInv {s t : State} {a : HostAction} (h : ActionOutcome s a (.next t)) (hs : StateInv s) : StateInv t := by
  have ⟨hwf, hinside, hlegal⟩ := hs
  cases h with
  | discard w he => exact hs
  | illegal w he hd => exact ⟨hwf, hinside, statusLegal_errorStatus ..⟩
  | command w i o he hd ho => exact stateInv_of_exec hs ho
  | statusWrite v => exact ⟨hwf, hinside, statusLegal_statusAfterWrite v hlegal⟩
  | store slot v hcmd hstatus => exact hs.congr (by simp) (by simp) (by simp)
  | regRead slot => exact hs
  | memWrite a v ha => exact ⟨Memory.wf_write a v hwf, Memory.inside_write v hinside ha, hlegal⟩
  | memRead a v ha hv => exact hs
  | reset => exact ⟨hwf, hinside, statusLegal_zero⟩
  | powerOn => exact ⟨Memory.wf_nil, rfl, statusLegal_zero⟩

/-- Settles O45: an idle step changes nothing, and each outcome of an action keeps PMEM canonical and inside, and STATUS legal. -/
theorem stepKeepsTheInvariant : Obligations.StepKeepsTheInvariant := by
  intro s t hs h
  obtain ⟨-, ⟨-, rfl⟩ | ⟨a, rest, -, ha⟩⟩ := step_next_cases h
  · exact hs
  · exact ha.stateInv (hs.congr rfl rfl rfl)

end Sys2Proof.Machine
end

section
/-!
SUPPORT. What every step keeps and what alone can change a register (R33 to R37, R246, R247), model faults (R212) and refused accesses
(R213), read off the outcomes of an action. `OnlyTheHostWritesOperandRegisters`, `ResultHoldsTheLastScalarResult`, `EachStepTakesOneAction`,
`ACompletedRunTookEveryAction`, `AModelFaultIsFinal`, `OnlyUnwrittenReadsFault` and `ExactlyTheIllFormedAccessesAreRefused` are settled
from these.
-/

namespace Sys2Proof.Machine

/-! ## The registers the host writes -/

/-- No update of STATUS, RESULT or PMEM reaches a descriptor or ARG register (R33, R34). -/
theorem readSlot_eq_of_fields {s t : State} (h : t = { s with status := t.status, result := t.result, pmem := t.pmem }) {slot : Slot}
    (hslot : slot ∈ operandSlots) : readSlot t slot = readSlot s slot := by
  rw [h]
  cases slot with
  | cmd | status | result | reserved0C | reserved1C | reserved2C => exact absurd hslot (by decide)
  | _ => rfl

/-- An action that changes a descriptor or ARG register is a write of the new value to it, or a reset. -/
theorem ActionOutcome.readSlot_cases {s t : State} {a : HostAction} (h : ActionOutcome s a (.next t)) {slot : Slot}
    (hslot : slot ∈ operandSlots) :
    readSlot t slot = readSlot s slot ∨ (∃ v, a = .regWrite slot.offset v ∧ readSlot t slot = v) ∨ a = .reset ∨ a = .powerOn := by
  cases h with
  | discard w he => exact .inl rfl
  | illegal w he hd => exact .inl (readSlot_eq_of_fields rfl hslot)
  | command w i o he hd ho => exact .inl (readSlot_eq_of_fields (exec_next_fields ho) hslot)
  | statusWrite v => exact .inl (readSlot_eq_of_fields rfl hslot)
  | store slot' v hcmd hstatus =>
    rw [readSlot_storeSlot]
    split
    · next heq =>
      obtain ⟨rfl, -⟩ := heq
      exact .inr (.inl ⟨v, rfl, rfl⟩)
    · exact .inl rfl
  | regRead slot' => exact .inl (by cases slot <;> rfl)
  | memWrite a v ha => exact .inl (readSlot_eq_of_fields rfl hslot)
  | memRead a v ha hv => exact .inl (by cases slot <;> rfl)
  | reset => exact .inr (.inr (.inl rfl))
  | powerOn => exact .inr (.inr (.inr rfl))

/-- Settles O46: the actions that change such a register, put back into the host's list. -/
theorem onlyTheHostWritesOperandRegisters : Obligations.OnlyTheHostWritesOperandRegisters := by
  intro s t h slot hslot hne
  obtain ⟨-, ⟨-, rfl⟩ | ⟨a, rest, hp, ha⟩⟩ := step_next_cases h
  · exact absurd rfl hne
  have hpop : readSlot (s.popAction rest) slot = readSlot s slot := by cases slot <;> rfl
  rcases ha.readSlot_cases hslot with heq | ⟨v, rfl, hv⟩ | rfl | rfl
  · exact absurd (heq.trans hpop) hne
  · exact .inl ⟨v, rest, hp, hv⟩
  · exact .inr (.inl ⟨rest, hp⟩)
  · exact .inr (.inr ⟨rest, hp⟩)

/-! ## RESULT -/

/-- A command that changes RESULT is no transform and records no error (R35). -/
theorem scalar_of_exec_result_ne {i : Instr} {s t : State} (h : exec i s = .next t) (hne : t.result ≠ s.result) :
    isTransform i = false ∧ t.status = s.status := by
  obtain ⟨e, -, rfl⟩ | ⟨hi, -, rfl⟩ | ⟨-, -, -, m, rfl, -⟩ := exec_next_cases h
  · exact absurd rfl hne
  · exact ⟨hi, rfl⟩
  · exact absurd rfl hne

/-- An action that changes RESULT issues a codec or INDEX command without an error, or is a reset (R35). -/
theorem ActionOutcome.of_result_ne {s t : State} {a : HostAction} (h : ActionOutcome s a (.next t)) (hne : t.result ≠ s.result) :
    (∃ w i, a = .regWrite 0x00 w ∧ decode w = .ok i ∧ isTransform i = false ∧ errFlag s.status = false ∧ t.status = s.status) ∨
      a = .reset ∨ a = .powerOn := by
  cases h with
  | command w i o he hd ho =>
    obtain ⟨hi, hstatus⟩ := scalar_of_exec_result_ne ho hne
    exact .inl ⟨w, i, rfl, hd, hi, he, hstatus⟩
  | store slot v hcmd hstatus => exact absurd (State.storeSlot_result ..) hne
  | reset => exact .inr (.inl rfl)
  | powerOn => exact .inr (.inr rfl)
  | _ => exact absurd rfl hne

/-- Settles O47: the actions that change RESULT, put back into the host's list. -/
theorem resultHoldsTheLastScalarResult : Obligations.ResultHoldsTheLastScalarResult := by
  intro s t h hne
  obtain ⟨-, ⟨-, rfl⟩ | ⟨a, rest, hp, ha⟩⟩ := step_next_cases h
  · exact absurd rfl hne
  rcases ha.of_result_ne hne with ⟨w, i, rfl, hd, hi, he, hstatus⟩ | rfl | rfl
  · exact .inl ⟨w, i, rest, hp, hd, hi, he, hstatus⟩
  · exact .inr (.inl ⟨rest, hp⟩)
  · exact .inr (.inr ⟨rest, hp⟩)

/-! ## The host's side -/

/-- No action changes the parameters, the fault record, or the list and position of the host beyond its own taking (R8, R246). -/
theorem ActionOutcome.hostSide {s t : State} {a : HostAction} (h : ActionOutcome s a (.next t)) :
    t.cfg = s.cfg ∧ t.fault = s.fault ∧ t.pending = s.pending ∧ t.position = s.position := by
  cases h with
  | command w i o he hd ho =>
    rw [exec_next_fields ho]
    exact ⟨rfl, rfl, rfl, rfl⟩
  | store slot v hcmd hstatus => simp
  | _ => exact ⟨rfl, rfl, rfl, rfl⟩

/-- Settles O48: the action taken is the head of the list, and its outcome keeps the parameters, the rest of the list and the position
that is one higher. -/
theorem eachStepTakesOneAction : Obligations.EachStepTakesOneAction := by
  intro s t h
  obtain ⟨-, ⟨hp, rfl⟩ | ⟨a, rest, hp, ha⟩⟩ := step_next_cases h
  · exact ⟨rfl, .inl ⟨hp, rfl⟩⟩
  · obtain ⟨hcfg, -, hpending, hposition⟩ := ha.hostSide
    exact ⟨hcfg, .inr ⟨a, by rw [hp, hpending, State.popAction_pending], hposition⟩⟩

/-- A step that answers a next state has no fault before it and none after it (R212). -/
theorem fault_none_of_step_next {s t : State} (h : step s = .next t) : s.fault = none ∧ t.fault = none := by
  obtain ⟨hf, ⟨-, rfl⟩ | ⟨a, rest, -, ha⟩⟩ := step_next_cases h
  · exact ⟨hf, hf⟩
  · obtain ⟨-, hfault, -⟩ := ha.hostSide
    exact ⟨hf, hfault.trans hf⟩

/-- A completed run of as many steps as there are actions, by their number: each step takes one (R246, R247). -/
theorem runFor_completed {n : Nat} {s t : State} (hn : s.pending.length = n) (h : runFor n s = .completed t) :
    t.pending = [] ∧ t.position = s.position + n ∧ s.fault = none ∧ t.fault = none := by
  induction n generalizing s with
  | zero =>
    rw [runFor] at h
    split at h <;> cases h
    next hf => exact ⟨List.eq_nil_of_length_eq_zero hn, rfl, hf, hf⟩
  | succ n ih =>
    rw [runFor] at h
    split at h
    · next u hu =>
      have hf := (fault_none_of_step_next hu).1
      obtain ⟨-, ⟨hp, -⟩ | ⟨a, hp, hposition⟩⟩ := eachStepTakesOneAction s u hu
      · simp [hp] at hn
      · obtain ⟨hend, hcount, -, hfault⟩ := ih (by simpa [hp] using hn) h
        exact ⟨hend, by omega, hf, hfault⟩
    · cases h
    · cases h

/-- Settles O49: the run of all actions takes as many steps as there are actions. -/
theorem aCompletedRunTookEveryAction : Obligations.ACompletedRunTookEveryAction :=
  fun _ _ h => runFor_completed rfl h

/-! ## Model faults -/

/-- A recorded fault is what every later step answers (R212). -/
theorem step_of_fault {s : State} {f : Fault} (h : s.fault = some f) : step s = .fault f := by
  simp [step, hostStep, h]

/-- A faulting step is recorded in the fault record, and nothing else changes (R212). -/
theorem stateAfter_of_fault {s : State} {f : Fault} (h : step s = .fault f) : stateAfter s = { s with fault := some f } := by
  rw [stateAfter, h]
  rfl

/-- Settles O38: the record of a fault, its finality, and that a step that goes on starts and ends without one. -/
theorem aModelFaultIsFinal : Obligations.AModelFaultIsFinal := by
  refine ⟨fun s f => stateAfter_of_fault, fun s f hf => ⟨step_of_fault hf, ?_⟩, fun s t h => (fault_none_of_step_next h).2⟩
  rw [stateAfter_of_fault (step_of_fault hf), ← hf]

/-- A command that faults is a transform, ready, with an Unwritten word in SRC (R212). -/
theorem exec_fault_cases {i : Instr} {s : State} {f : Fault} (h : exec i s = .fault f) :
    f = .unwrittenRead ∧ isTransform i = true ∧ TransformReady s ∧ ∃ a, InSrc s a ∧ s.pmem.read a = none := by
  rcases exec_outcomes i s with ⟨e, -, hx⟩ | ⟨-, -, hx⟩ | ⟨-, -, -, m, hx, -⟩ | ⟨hi, -, hr, hx, ha⟩ <;> rw [hx] at h <;> cases h
  exact ⟨rfl, hi, hr, ha⟩

/-- Settles O37: of the outcomes of an action, a memory read of an Unwritten word and a command that faults. -/
theorem onlyUnwrittenReadsFault : Obligations.OnlyUnwrittenReadsFault := by
  intro s f hf h
  rcases step_cases s with ⟨g, hg, -⟩ | ⟨-, -, hx⟩ | ⟨a, rest, -, hp, hx⟩
  · rw [hf] at hg
    cases hg
  · rw [hx] at h
    cases h
  have ha := takeAction_outcome a (s.popAction rest)
  rw [← hx, h] at ha
  cases ha with
  | unwritten a ha hn => exact ⟨rfl, .inl ⟨a, rest, hp, ha, hn⟩⟩
  | command w i o he hd ho =>
    obtain ⟨rfl, hi, hr, a, hin, hn⟩ := exec_fault_cases ho
    exact ⟨rfl, .inr ⟨w, i, rest, a, hp, hd, hi, hr, hin, hn⟩⟩

/-! ## Refused accesses -/

/-- No command is refused: each has its rule (R94). -/
theorem exec_ne_refused (i : Instr) (s : State) (r : Refusal) : exec i s ≠ .refused r := by
  rcases exec_outcomes i s with ⟨e, -, hx⟩ | ⟨-, -, hx⟩ | ⟨-, -, -, m, hx, -⟩ | ⟨-, -, -, hx, -⟩ <;> simp [hx]

/-- The register port accepts the offset of every slot (R30, R61). -/
theorem offsetOk_offset (slot : Slot) : offsetOk slot.offset = true := by cases slot <;> rfl

/-- An action that is not refused is one of those that R213 leaves. -/
theorem ActionOutcome.refused_iff {s : State} {a : HostAction} {o : Host.Outcome State Fault Refusal} (h : ActionOutcome s a o) :
    (∃ r, o = .refused r) ↔ a.wellFormed s.cfg = false := by
  cases h with
  | refused a r ha => simp [ha]
  | command w i o he hd ho => simp [← ho, exec_ne_refused, HostAction.wellFormed, offsetOk]
  | memWrite a v ha => simpa [HostAction.wellFormed, addressOk] using ha
  | memRead a v ha hv => simpa [HostAction.wellFormed, addressOk] using ha
  | unwritten a ha hn => simpa [HostAction.wellFormed, addressOk] using ha
  | store slot v hcmd hstatus => simp [HostAction.wellFormed, offsetOk_offset]
  | regRead slot => simp [HostAction.wellFormed, offsetOk_offset]
  | _ => simp [HostAction.wellFormed, offsetOk]

/-- A step is refused exactly when no fault is recorded and its action is ill formed (R213). -/
theorem step_refused_iff (s : State) :
    (∃ r, step s = .refused r) ↔ s.fault = none ∧ ∃ a rest, s.pending = a :: rest ∧ a.wellFormed s.cfg = false := by
  rcases step_cases s with ⟨f, hf, hx⟩ | ⟨-, hp, hx⟩ | ⟨a, rest, hf, hp, hx⟩
  · simp [hf, hx]
  · simp [hp, hx]
  · rw [hx, (takeAction_outcome a (s.popAction rest)).refused_iff]
    simp [hf, hp]

/-- An access of the register port at an offset without a slot is refused by the name of what is wrong with the offset (R213). -/
theorem step_of_slotAt_error {s : State} {off : Nat} {v : Word} {rest : List HostAction} {r : Refusal} (hoff : slotAt off = .error r)
    (h : Awaits s (.regWrite off v) rest ∨ Awaits s (.regRead off) rest) : step s = .refused r := by
  rcases h with h | h
  · rw [step_of_awaits h, takeAction, regWrite, hoff]
  · rw [step_of_awaits h, takeAction, regRead, hoff]

/-- Settles O42: the ill-formed actions are the refused ones, and the names follow the offset, the address and the width. -/
theorem exactlyTheIllFormedAccessesAreRefused : Obligations.ExactlyTheIllFormedAccessesAreRefused :=
  ⟨step_refused_iff, fun _ _ _ _ _ _ =>
    ⟨fun h h4 => step_of_slotAt_error (slotAt_eq_error.mpr (.inl ⟨h4, rfl⟩)) h,
     fun h h4 hhigh => step_of_slotAt_error (slotAt_eq_error.mpr (.inr ⟨h4, hhigh, rfl⟩)) h,
     fun h ha => h.elim (step_memWrite_beyond · ha) (step_memRead_beyond · ha),
     step_of_awaits⟩⟩

end Sys2Proof.Machine
end

section
/-!
SUPPORT. The host's ports and resets: what a read or write of each register does (R30, R61), a memory read after a write (R69), the state
after each reset (R42, R240), and the actions of the pseudo-instructions (R99). `StatusIsClearedByWritingBitZero`,
`RegisterWritesStoreTheirValue`, `RegisterReadsReturnTheirValue`, `AReadReturnsTheLastWrite`, `ResetSatisfiesTheInvariant`,
`ResetClearsTheRegisters`, `ResetInsideATransformUnwritesDst` and `PseudoInstructionsExpand` are settled from these.
-/

namespace Sys2Proof.Machine

/-! ## The register port -/

/-- Settles O30: the step that writes STATUS clears or leaves it, and takes the action. -/
theorem statusIsClearedByWritingBitZero : Obligations.StatusIsClearedByWritingBitZero :=
  fun _ _ _ h => step_statusWrite h

section RegisterPort

variable {s : State} {off : Nat} {v : Word} {rest : List HostAction}

/-- A write to a slot other than CMD and STATUS takes the action off the host's list and stores the value (R61). -/
theorem step_regWrite (h : Awaits s (.regWrite off v) rest) (slot : Slot) (hcmd : slot ≠ .cmd) (hstatus : slot ≠ .status)
    (hoff : off = slot.offset) : step s = .next ((s.popAction rest).storeSlot slot v) := by
  rw [step_of_awaits h, takeAction, regWrite, hoff, slotAt_offset]
  exact writeSlot_eq_storeSlot _ v hcmd hstatus

/-- A read of a slot takes the action off the host's list and returns the slot's value (R61). -/
theorem step_regRead (h : Awaits s (.regRead off) rest) (slot : Slot) (hoff : off = slot.offset) :
    step s = .next ((s.popAction rest).pushRead (readSlot s slot)) := by
  rw [step_of_awaits h, takeAction, regRead, hoff, slotAt_offset]
  cases slot <;> rfl

end RegisterPort

/-- Settles O39: each offset is that of one slot, and the store to that slot is one field or none. -/
theorem registerWritesStoreTheirValue : Obligations.RegisterWritesStoreTheirValue := by
  intro s off v rest h
  refine ⟨step_regWrite h .srcBase (by decide) (by decide), step_regWrite h .srcWidth (by decide) (by decide),
    step_regWrite h .srcHeight (by decide) (by decide), step_regWrite h .dstBase (by decide) (by decide),
    step_regWrite h .dstWidth (by decide) (by decide), step_regWrite h .dstHeight (by decide) (by decide),
    step_regWrite h .arg0 (by decide) (by decide), step_regWrite h .arg1 (by decide) (by decide),
    step_regWrite h .arg2 (by decide) (by decide), step_regWrite h .arg3 (by decide) (by decide), ?_⟩
  rintro (hoff | hoff | hoff | hoff)
  · exact step_regWrite h .result (by decide) (by decide) hoff
  · exact step_regWrite h .reserved0C (by decide) (by decide) hoff
  · exact step_regWrite h .reserved1C (by decide) (by decide) hoff
  · exact step_regWrite h .reserved2C (by decide) (by decide) hoff

/-- Settles O40: each offset is that of one slot, whose value the read returns. -/
theorem registerReadsReturnTheirValue : Obligations.RegisterReadsReturnTheirValue := by
  rintro s off rest h v (⟨hoff | hoff | hoff | hoff, rfl⟩ | ⟨hoff, rfl⟩ | ⟨hoff, rfl⟩ | ⟨hoff, rfl⟩ | ⟨hoff, rfl⟩ | ⟨hoff, rfl⟩ |
    ⟨hoff, rfl⟩ | ⟨hoff, rfl⟩ | ⟨hoff, rfl⟩ | ⟨hoff, rfl⟩ | ⟨hoff, rfl⟩ | ⟨hoff, rfl⟩ | ⟨hoff, rfl⟩)
  · exact step_regRead h .cmd hoff
  · exact step_regRead h .reserved0C hoff
  · exact step_regRead h .reserved1C hoff
  · exact step_regRead h .reserved2C hoff
  · exact step_regRead h .status hoff
  · exact step_regRead h .result hoff
  · exact step_regRead h .srcBase hoff
  · exact step_regRead h .srcWidth hoff
  · exact step_regRead h .srcHeight hoff
  · exact step_regRead h .dstBase hoff
  · exact step_regRead h .dstWidth hoff
  · exact step_regRead h .dstHeight hoff
  · exact step_regRead h .arg0 hoff
  · exact step_regRead h .arg1 hoff
  · exact step_regRead h .arg2 hoff
  · exact step_regRead h .arg3 hoff

/-! ## A memory read after a write -/

/-- Settles O43: after the write the host awaits the read, of a memory whose reads are those before it but for the written word. -/
theorem aReadReturnsTheLastWrite : Obligations.AReadReturnsTheLastWrite := by
  intro s a b v rest h ha hb
  have hread : Awaits ((s.popAction (.memRead b :: rest)).setPmem (s.pmem.write a v)) (.memRead b) rest := ⟨h.1, rfl⟩
  refine ⟨_, step_memWrite h ha, fun hba => ?_, fun hba w hw => ?_, fun hba hn => ?_⟩
  · exact ⟨_, step_memRead hread hb (hba ▸ Memory.read_write_same ..), rfl, rfl⟩
  · exact ⟨_, step_memRead hread hb ((Memory.read_write_other _ v hba).trans hw), rfl, rfl⟩
  · exact step_memRead_unwritten hread hb ((Memory.read_write_other _ v hba).trans hn)

/-! ## Resets -/

/-- Settles O44: after reset PMEM is empty and STATUS is 0. -/
theorem resetSatisfiesTheInvariant : Obligations.ResetSatisfiesTheInvariant :=
  ⟨Memory.wf_nil, rfl, statusLegal_zero⟩

/-- Another PMEM is in no register. -/
@[simp] theorem readSlot_setPmem (s : State) (m : Memory) (slot : Slot) : readSlot (s.setPmem m) slot = readSlot s slot := by
  cases slot <;> rfl

/-- Settles O52: both resets put the registers at their reset values, and the power-on reset empties PMEM. -/
theorem resetClearsTheRegisters : Obligations.ResetClearsTheRegisters := by
  refine fun s rest => ⟨fun h => ⟨_, step_reset h, readSlot_resetRegisters _, rfl, rfl, rfl, rfl, h.1⟩, fun h => ?_⟩
  refine ⟨(s.popAction rest).powerOn, step_of_awaits h, fun slot => ?_, Memory.read_nil, rfl, rfl, rfl, h.1⟩
  rw [State.powerOn, readSlot_setPmem, readSlot_resetRegisters]

/-- The DST region as an interval of naturals, for any dimensions: a negative end is an empty region (R141). -/
theorem inDst_iff_endAddr (s : State) (a : Nat) : InDst s a ↔ (dstRaster s).base ≤ a ∧ a < (dstRaster s).endAddr.toNat := by
  rw [InDst, Raster.endAddr, dstRaster_base, dstRaster_width, dstRaster_height, Int.lt_toNat]

/-- Settles O53: the erased range is the DST region, and the registers are at their reset values. -/
theorem resetInsideATransformUnwritesDst : Obligations.ResetInsideATransformUnwritesDst := by
  intro i s hi
  simp only [State.resetInsideCommand, hi, if_true, readSlot_setPmem, readSlot_resetRegisters, State.setPmem_pmem,
    Memory.read_eraseRange, inDst_iff_endAddr]
  exact ⟨fun _ => trivial, fun _ ha => if_pos ha, fun _ ha => if_neg ha⟩

/-! ## Pseudo-instructions -/

/-- A list of words is written to consecutive addresses (R99). -/
theorem writeWords_eq_mapIdx (a : Nat) (vs : List Word) : writeWords a vs = vs.mapIdx fun k v => .memWrite (a + k) v := by
  induction vs generalizing a with
  | nil => rfl
  | cons v vs ih =>
    rw [writeWords, ih, List.mapIdx_cons]
    simp only [Nat.add_zero, Nat.add_comm, Nat.add_left_comm]

/-- Settles O54: the register lines expand by their definitions, and `wmemv` to one write for each word. -/
theorem pseudoInstructionsExpand : Obligations.PseudoInstructionsExpand :=
  ⟨fun _ => rfl, fun _ _ _ => rfl, fun _ _ _ => rfl, fun _ _ _ _ => rfl, fun _ _ _ => rfl, fun _ _ => rfl, fun _ => rfl, rfl,
    writeWords_eq_mapIdx⟩

end Sys2Proof.Machine
end

section
/-!
SUPPORT. The parameters HOST_BYTE_ORDER, REG_BASE and PMEM_BASE (R8): with other values of them every part of a command, and so every
action, does the same. `PlatformParametersAreNotObserved` is settled from these.
-/

namespace Sys2Proof.Machine

/-- The state with other values of the three platform parameters (R8). -/
def State.setPlatform (order : ByteOrder) (regBase pmemBase : Nat) (s : State) : State :=
  { s with cfg := { s.cfg with hostByteOrder := order, regBase := regBase, pmemBase := pmemBase } }

/-- An outcome with another next state, if it has one. -/
def mapNext (f : State → State) : Host.Outcome State Fault Refusal → Host.Outcome State Fault Refusal
  | .next t => .next (f t)
  | .fault e => .fault e
  | .refused r => .refused r

/-- With a state update that keeps what the effect and the checks see and passes through STATUS, a checked command answers the updated
state. -/
theorem runChecked_map {f : State → State} (i : Instr) (l : List (Option ErrCode)) (eff : Except Fault State) (s : State)
    (hf : ∀ v, (f s).setStatus v = f (s.setStatus v)) : runChecked i l (eff.map f) (f s) = mapNext f (runChecked i l eff s) := by
  unfold runChecked
  cases firstError l with
  | some e => exact congrArg Host.Outcome.next (hf _)
  | none => cases eff <;> rfl

section Platform

variable (order : ByteOrder) (regBase pmemBase : Nat)

/-- No transform's loop observes the platform parameters. -/
theorem transformEffect_setPlatform (cell : Memory → Nat → Nat → Except Fault (Option Word)) (h w : Nat) (s : State) :
    transformEffect cell h w (s.setPlatform order regBase pmemBase) =
      (transformEffect cell h w s).map (State.setPlatform order regBase pmemBase) := by
  have hdst : dstRaster (s.setPlatform order regBase pmemBase) = dstRaster s := rfl
  have hpmem : (s.setPlatform order regBase pmemBase).pmem = s.pmem := rfl
  rw [transformEffect, transformEffect, hdst, hpmem]
  cases storeCells (dstRaster s) cell (cells h w) s.pmem <;> rfl

/-- No command observes the platform parameters (R8). -/
theorem exec_setPlatform (i : Instr) (s : State) :
    exec i (s.setPlatform order regBase pmemBase) = mapNext (State.setPlatform order regBase pmemBase) (exec i s) := by
  have hchecks : checksOf i (s.setPlatform order regBase pmemBase) = checksOf i s := by cases i <;> rfl
  have hresult : resultOf i (s.setPlatform order regBase pmemBase) = resultOf i s := by cases i <;> rfl
  have hcell : cellOf i (s.setPlatform order regBase pmemBase) = cellOf i s := by cases i <;> rfl
  have hbounds : boundsOf i (s.setPlatform order regBase pmemBase) = boundsOf i s := by cases i <;> rfl
  rw [exec_eq, exec_eq, hchecks, hresult, hcell, hbounds, transformEffect_setPlatform, ← runChecked_map i _ _ s fun _ => rfl,
    apply_ite (Except.map (State.setPlatform order regBase pmemBase))]
  rfl

/-- No write to a register observes the platform parameters. -/
theorem writeSlot_setPlatform (slot : Slot) (v : Word) (s : State) :
    writeSlot v (s.setPlatform order regBase pmemBase) slot =
      mapNext (State.setPlatform order regBase pmemBase) (writeSlot v s slot) := by
  cases slot with
  | cmd =>
    simp only [writeSlot, issueCommand, apply_ite (mapNext (State.setPlatform order regBase pmemBase))]
    cases decode v with
    | error r => rfl
    | ok i =>
      simp only [exec_setPlatform]
      rfl
  | _ => rfl

/-- No host action observes the platform parameters (R8). -/
theorem takeAction_setPlatform (a : HostAction) (s : State) :
    takeAction a (s.setPlatform order regBase pmemBase) =
      mapNext (State.setPlatform order regBase pmemBase) (takeAction a s) := by
  cases a with
  | regWrite off v =>
    simp only [takeAction, regWrite]
    cases slotAt off with
    | error r => rfl
    | ok slot => exact writeSlot_setPlatform order regBase pmemBase slot v s
  | regRead off =>
    simp only [takeAction, regRead]
    cases slotAt off with
    | error r => rfl
    | ok slot => cases slot <;> rfl
  | memWrite a v =>
    simp only [takeAction, hostMemWrite, apply_ite (mapNext (State.setPlatform order regBase pmemBase))]
    rfl
  | memRead a =>
    have hsame : (s.setPlatform order regBase pmemBase).pmem = s.pmem := rfl
    simp only [takeAction, hostMemRead, hsame, apply_ite (mapNext (State.setPlatform order regBase pmemBase))]
    cases s.pmem.read a <;> rfl
  | _ => rfl

/-- No step observes the platform parameters (R8). -/
theorem step_setPlatform (s : State) :
    step (s.setPlatform order regBase pmemBase) = mapNext (State.setPlatform order regBase pmemBase) (step s) := by
  rcases step_cases s with ⟨f, hf, hx⟩ | ⟨hf, hp, hx⟩ | ⟨a, rest, hf, hp, hx⟩ <;> rw [hx]
  · exact step_of_fault hf
  · simp [step, hostStep, State.setPlatform, hf, hp, mapNext]
  · rw [← takeAction_setPlatform]
    exact step_of_pending (s := s.setPlatform order regBase pmemBase) hf hp

end Platform

/-- Settles O50: a step commutes with a change of the three parameters. -/
theorem platformParametersAreNotObserved : Obligations.PlatformParametersAreNotObserved := by
  intro s order regBase pmemBase
  rw [← State.setPlatform, step_setPlatform]
  cases step s <;> rfl

end Sys2Proof.Machine
end

section
/-!
SUPPORT. What a command that answers a next state leaves: one place changed (R33, R35, R63, R203), each word of DST written at most once
(R75), and the same state again when it is issued again (R66). A transform over the whole of SRC reads every word of it (R77, R212).
`ACommandWritesOnePlaceOnly`, `ErrorsDoNotDependOnPixels`, `TheEngineWritesOnlyDst`, `EachDstWordIsVisitedOnce`, `CommandsAreIdempotent` and
`UnwrittenSourceWordStopsTheTransform` are settled from these.
-/

namespace Sys2Proof.Machine

/-! ## The frame of a command -/

/-- Settles O28: the three answers of a command are an error, RESULT, and words of DST. -/
theorem aCommandWritesOnePlaceOnly : Obligations.ACommandWritesOnePlaceOnly := by
  intro i s t h
  obtain ⟨e, -, rfl⟩ | ⟨hi, -, rfl⟩ | ⟨hi, -, -, m, rfl, -, -, hout⟩ := exec_next_cases h
  · exact .inr (.inr ⟨rfl, errFlag_errorStatus ..⟩)
  · exact .inl ⟨hi, rfl⟩
  · exact .inr (.inl ⟨hi, rfl, hout⟩)

/-- Settles O32: only a ready transform changes PMEM, and in DST alone, which shares no word with SRC. -/
theorem theEngineWritesOnlyDst : Obligations.TheEngineWritesOnlyDst := by
  intro i s t h
  have hframe : ∀ a, ¬(isTransform i = true ∧ TransformReady s ∧ InDst s a) → t.pmem.read a = s.pmem.read a := by
    obtain ⟨e, -, rfl⟩ | ⟨-, -, rfl⟩ | ⟨hi, -, hr, m, rfl, -, -, hout⟩ := exec_next_cases h
    · exact fun _ _ => rfl
    · exact fun _ _ => rfl
    · exact fun a ha => hout a fun hd => ha ⟨hi, hr, hd⟩
  exact ⟨hframe, fun a hsrc => hframe a fun ⟨_, ⟨_, _, hdisjoint⟩, hdst⟩ => hdisjoint a ⟨hsrc, hdst⟩⟩

/-- Settles O33: the addresses are those of the DST raster, one for each cell, and every word of the region is a cell. -/
theorem eachDstWordIsVisitedOnce : Obligations.EachDstWordIsVisitedOnce := by
  intro s hd
  have ⟨hwidth, _, _⟩ := hd
  refine ⟨?_, fun a => ?_⟩
  · simp only [← dstRaster_addr hwidth]
    exact cellAddrs_nodup (dstRaster_cols hwidth).ge
  · rw [List.mem_map]
    constructor
    · rintro ⟨⟨row, col⟩, hcell, rfl⟩
      obtain ⟨hrow, hcol⟩ := mem_cells.mp hcell
      exact inDst_dstAddr hd hrow hcol
    · intro ha
      obtain ⟨row, col, hrow, hcol, hcell⟩ := exists_dstAddr hd ha
      exact ⟨(row, col), mem_cells.mpr ⟨hrow, hcol⟩, hcell⟩

/-! ## What the checks and the values of a command depend on -/

/-- No check reads PMEM (R202). -/
theorem checksOf_setPmem (i : Instr) (s : State) (m : Memory) : checksOf i (s.setPmem m) = checksOf i s := by cases i <;> rfl

/-- No check reads STATUS (log entry 15). -/
theorem checksOf_setStatus (i : Instr) (s : State) (v : Word) : checksOf i (s.setStatus v) = checksOf i s := by cases i <;> rfl

/-- No check reads RESULT (R35). -/
theorem checksOf_setResult (i : Instr) (s : State) (v : Word) : checksOf i (s.setResult v) = checksOf i s := by cases i <;> rfl

/-- A command that writes RESULT does not read it (R35). -/
theorem resultOf_setResult {i : Instr} (h : isTransform i = false) (s : State) (v : Word) :
    resultOf i (s.setResult v) = resultOf i s := by
  cases i with
  | squash | colorRotate | blur | expand => cases h
  | _ => rfl

/-- The cells of a transform read the memory they are given, and no other (R63). -/
theorem cellOf_setPmem (i : Instr) (s : State) (m : Memory) : cellOf i (s.setPmem m) = cellOf i s := by cases i <;> rfl

/-- A command whose checks fail records the same error with any PMEM (R202). -/
theorem exec_setPmem_of_firstError {i : Instr} {s : State} {e : ErrCode} (h : firstError (checksOf i s) = some e) (m : Memory) :
    exec i (s.setPmem m) = .next ((raiseError e (encode i) s).setPmem m) := by
  rw [exec_eq, runChecked_some _ _ ((checksOf_setPmem i s m).symm ▸ h)]
  rfl

/-- Settles O31: a command that changes STATUS has a check that fails, and the checks are the same with any PMEM. -/
theorem errorsDoNotDependOnPixels : Obligations.ErrorsDoNotDependOnPixels := by
  intro i s m v h hv
  obtain ⟨e, he, ht⟩ | ⟨-, -, ht⟩ | ⟨-, -, -, m', ht, -⟩ := exec_next_cases h
  · have hsame := exec_setPmem_of_firstError he m
    rw [← ht] at hsame
    exact hsame
  · exact absurd (congrArg State.status ht) hv
  · exact absurd (congrArg State.status ht) hv

/-! ## A transform that answers a next state -/

section Transform

variable {i : Instr} {s t : State}

/-- A command that answers a next state keeps the canonical form of PMEM. -/
theorem pmem_wf_of_exec (h : exec i s = .next t) (hw : s.pmem.wf = true) : t.pmem.wf = true := by
  obtain ⟨e, -, rfl⟩ | ⟨-, -, rfl⟩ | ⟨-, -, -, m, rfl, hm, -⟩ := exec_next_cases h
  · exact hw
  · exact hw
  · exact hm hw

/-- A command that cannot answer a next state stops at UNWRITTEN_READ (R212). -/
theorem exec_fault_of_not_next (h : ∀ t, exec i s ≠ .next t) : exec i s = .fault .unwrittenRead := by
  rcases exec_outcomes i s with ⟨e, -, hx⟩ | ⟨-, -, hx⟩ | ⟨-, -, -, m, hx, -⟩ | ⟨-, -, -, hx, -⟩
  · exact absurd hx (h _)
  · exact absurd hx (h _)
  · exact absurd hx (h _)
  · exact hx

variable (ht : isTransform i = true) (hn : firstError (checksOf i s) = none)
include ht hn

/-- A transform that passes its checks loops over all of DST. -/
theorem boundsOf_of_passed : boundsOf i s = (s.dstHeight.toNat, s.dstWidth.toNat) := by
  obtain ⟨⟨-, ⟨hwidth, hheight, -⟩, -⟩, hbounds, -⟩ := transform_passed ht hn
  rw [hbounds, dstRaster_rows hheight, dstRaster_cols hwidth]

/-- A transform that passes its checks and answers a next state found a value for every cell of DST (R212). -/
theorem cellOf_ok_of_exec (h : exec i s = .next t) {row col : Nat} (hrow : row < s.dstHeight.toNat) (hcol : col < s.dstWidth.toNat) :
    ∃ o, cellOf i s s.pmem row col = .ok o := by
  obtain ⟨hr, hb, hc⟩ := transform_passed ht hn
  have heffect : transformEffect (cellOf i s) (boundsOf i s).1 (boundsOf i s).2 s = .ok t := by
    rw [exec_eq, ht, if_pos rfl] at h
    obtain ⟨e, he, -⟩ | ⟨-, u, hu, hx⟩ | ⟨-, f, -, hx⟩ := runChecked_cases i (checksOf i s)
      (transformEffect (cellOf i s) (boundsOf i s).1 (boundsOf i s).2 s) s
    · rw [hn] at he
      cases he
    · rw [hx] at h
      cases h
      exact hu
    · rw [hx] at h
      cases h
  obtain ⟨m, -, -, -, hok, -⟩ := transformEffect_spec hr hc (by simp [hb]) (by simp [hb]) heffect
  rw [boundsOf_of_passed ht hn] at hok
  exact hok row col hrow hcol

/-- What it leaves: each cell's word, or what stood there if the cell has no word to write, and all but the words of DST as they were
(R63, R75). -/
theorem pmem_of_exec (h : exec i s = .next t) :
    t = s.setPmem t.pmem ∧
    (∀ row col o, row < s.dstHeight.toNat → col < s.dstWidth.toNat → cellOf i s s.pmem row col = .ok o →
      t.pmem.read (dstAddr s row col) = o.or (s.pmem.read (dstAddr s row col))) ∧
    ∀ a, ¬InDst s a → t.pmem.read a = s.pmem.read a := by
  obtain ⟨m, hx, hm⟩ := exec_transform_reads ht hn fun row col => cellOf_ok_of_exec ht hn h
  rw [h] at hx
  cases hx
  exact ⟨rfl, hm⟩

/-- A transform that answers a next state has the same cells in the memory it leaves: they see SRC alone, which it does not change. -/
theorem cellOf_pmem_of_exec (h : exec i s = .next t) {row col : Nat} (hrow : row < s.dstHeight.toNat) (hcol : col < s.dstWidth.toNat) :
    cellOf i s t.pmem row col = cellOf i s s.pmem row col := by
  obtain ⟨⟨hsrc, -⟩, -, hreads⟩ := transform_passed ht hn
  rw [boundsOf_of_passed ht hn] at hreads
  obtain ⟨-, hkept⟩ := theEngineWritesOnlyDst i s t h
  exact hreads t.pmem (fun a ha => hkept a ((srcRegion_iff hsrc a).mp ha)) row col hrow hcol

/-- A transform issued again finds the values it found, and writes each word where it stands already (R66). -/
theorem exec_transform_again (hw : s.pmem.wf = true) (h : exec i s = .next t) : exec i t = .next t := by
  obtain ⟨m, rfl⟩ : ∃ m, t = s.setPmem m := ⟨_, (pmem_of_exec ht hn h).1⟩
  have hn' : firstError (checksOf i (s.setPmem m)) = none := (checksOf_setPmem i s m).symm ▸ hn
  have hcell : ∀ row col, row < s.dstHeight.toNat → col < s.dstWidth.toNat →
      cellOf i (s.setPmem m) (s.setPmem m).pmem row col = cellOf i s s.pmem row col := fun row col hrow hcol => by
    rw [cellOf_setPmem, cellOf_pmem_of_exec ht hn h hrow hcol]
  obtain ⟨-, hstored, -⟩ := pmem_of_exec ht hn h
  obtain ⟨m', hx, hstored', hout'⟩ := exec_transform_reads ht hn' fun row col hrow hcol => by
    rw [hcell row col hrow hcol]
    exact cellOf_ok_of_exec ht hn h hrow hcol
  have hwf : m.wf = true := pmem_wf_of_exec h hw
  obtain rfl : m' = m := by
    refine Memory.ext_read (pmem_wf_of_exec hx hwf) hwf fun a => ?_
    by_cases ha : InDst s a
    · obtain ⟨⟨-, hdst, -⟩, -⟩ := transform_passed ht hn
      obtain ⟨row, col, hrow, hcol, rfl⟩ := exists_dstAddr hdst ha
      obtain ⟨o, ho⟩ := cellOf_ok_of_exec ht hn h hrow hcol
      have hsecond := hstored' row col o hrow hcol ((hcell row col hrow hcol).trans ho)
      have hfirst := hstored row col o hrow hcol ho
      cases o with
      | some v => exact hsecond.trans hfirst.symm
      | none => exact hsecond
    · exact hout' a ha
  exact hx

end Transform

/-- Settles O35: an error is raised again, RESULT is written with the same word, and a transform writes what stands there. -/
theorem commandsAreIdempotent : Obligations.CommandsAreIdempotent := by
  intro i s t hw h
  obtain ⟨e, he, rfl⟩ | ⟨hi, hn, rfl⟩ | ⟨hi, hn, -⟩ := exec_next_cases h
  · rw [exec_eq, raiseError, runChecked_some _ _ ((checksOf_setStatus i s _).symm ▸ he)]
    rfl
  · rw [exec_of_firstError_none hi ((checksOf_setResult i s _).symm ▸ hn), resultOf_setResult hi]
    rfl
  · exact exec_transform_again hi hn hw h

/-! ## A transform over the whole of SRC -/

/-- A cell of COLOR_ROTATE with a value has read its source pixel (R171). -/
theorem sourcePixel_of_rotateCell {src : Raster} {m : Memory} {row col : Nat} {o : Option Word}
    (h : rotateCell src m row col = .ok o) : ∃ v, sourcePixel src m row col = .ok v := by
  rw [rotateCell, written_eq_ok] at h
  obtain ⟨q, hq, -⟩ := h
  split at hq
  · next p hp => exact ⟨p, hp⟩
  · cases hq

/-- A cell of BLUR with a value has read its centre (R181). -/
theorem sourcePixel_of_blurCell {src : Raster} {d : Nat} {m : Memory} {row col : Nat} {o : Option Word}
    (h : blurCell src d m row col = .ok o) : ∃ v, sourcePixel src m row col = .ok v := by
  rw [blurCell, written_eq_ok] at h
  obtain ⟨q, hq, -⟩ := h
  rw [blurPixel] at hq
  split at hq
  · cases hq
  split at hq
  · cases hq
  split at hq
  · cases hq
  · next p hp => exact ⟨p, hp⟩

/-- An even cell of EXPAND with a value is a copy of its source pixel (R190). -/
theorem sourcePixel_of_expandCell {src : Raster} {m : Memory} {row col : Nat} {o : Option Word}
    (h : expandCell src m (2 * row) (2 * col) = .ok o) : ∃ v, sourcePixel src m row col = .ok v := by
  rw [expandCell, written_eq_ok] at h
  obtain ⟨q, hq, -⟩ := h
  rw [expandPixel, if_pos (by omega), Nat.mul_div_cancel_left _ two_pos, Nat.mul_div_cancel_left _ two_pos] at hq
  exact ⟨q, hq⟩

/-- An engine read that answers a word read a Written one (R15). -/
theorem engineRead_eq_ok {m : Memory} {a : Nat} {v : Word} : engineRead m a = .ok v ↔ m.read a = some v := by
  unfold engineRead
  cases m.read a <;> simp

/-- Each word of SRC is a source cell (R141). -/
theorem exists_srcAddr {s : State} (hs : SrcFits s) {a : Nat} (h : InSrc s a) :
    ∃ row col, row < s.srcHeight.toNat ∧ col < s.srcWidth.toNat ∧ srcAddr s row col = a := by
  have ⟨hwidth, hheight, _⟩ := hs
  obtain ⟨row, col, hrow, hcol, ha⟩ := Raster.exists_addr ((srcRegion_iff hs a).mpr h)
  rw [srcRaster_rows hheight] at hrow
  rw [srcRaster_cols hwidth] at hcol
  rw [srcRaster_addr hwidth] at ha
  exact ⟨row, col, hrow, hcol, ha⟩

/-- SRC is Written if every source pixel is read. -/
theorem srcWritten_of_sourcePixel {s : State} (hs : SrcFits s)
    (h : ∀ row col, row < s.srcHeight.toNat → col < s.srcWidth.toNat → ∃ v, sourcePixel (srcRaster s) s.pmem row col = .ok v) :
    SrcWritten s := by
  intro a ha
  obtain ⟨row, col, hrow, hcol, rfl⟩ := exists_srcAddr hs ha
  obtain ⟨v, hv⟩ := h row col hrow hcol
  have ⟨hwidth, _, _⟩ := hs
  rw [sourcePixel_eq_ok, srcRaster_addr hwidth] at hv
  exact ⟨v, hv⟩

section WholeSource

variable {s t : State} (hr : TransformReady s)
include hr

/-- COLOR_ROTATE answers a next state on rasters of one size only if SRC is Written (R77, R212). -/
theorem srcWritten_of_colorRotate (ew : s.dstWidth = s.srcWidth) (eh : s.dstHeight = s.srcHeight)
    (h : exec .colorRotate s = .next t) : SrcWritten s := by
  refine srcWritten_of_sourcePixel hr.1 fun row col hrow hcol => ?_
  obtain ⟨o, ho⟩ := cellOf_ok_of_exec rfl (firstError_colorRotate_of_ready hr ew eh) h (eh ▸ hrow) (ew ▸ hcol)
  exact sourcePixel_of_rotateCell ho

/-- BLUR with a blurDist of at least 0 answers a next state on rasters of one size only if SRC is Written (R77, R212). -/
theorem srcWritten_of_blur (ew : s.dstWidth = s.srcWidth) (eh : s.dstHeight = s.srcHeight) (hd : 0 ≤ s.arg0.toInt)
    (h : exec .blur s = .next t) : SrcWritten s := by
  refine srcWritten_of_sourcePixel hr.1 fun row col hrow hcol => ?_
  obtain ⟨o, ho⟩ := cellOf_ok_of_exec rfl (firstError_blur_of_ready hd hr ew eh) h (eh ▸ hrow) (ew ▸ hcol)
  exact sourcePixel_of_blurCell ho

/-- EXPAND answers a next state on a DST of twice the size only if SRC is Written (R77, R212). -/
theorem srcWritten_of_expand (ew : s.dstWidth.toInt = 2 * s.srcWidth.toInt) (eh : s.dstHeight.toInt = 2 * s.srcHeight.toInt)
    (h : exec .expand s = .next t) : SrcWritten s := by
  have ⟨⟨hwidth, hheight, _⟩, _, _⟩ := hr
  refine srcWritten_of_sourcePixel hr.1 fun row col hrow hcol => ?_
  obtain ⟨o, ho⟩ := cellOf_ok_of_exec rfl (firstError_expand_of_ready hr ew eh) h (row := 2 * row) (col := 2 * col)
    (by rw [toNat_eq_two_mul_of_toInt hheight eh]; omega) (by rw [toNat_eq_two_mul_of_toInt hwidth ew]; omega)
  exact sourcePixel_of_expandCell ho

/-- SQUASH answers a next state only if each pixel it samples is Written, and leaves that pixel in the cell (R160, R212). -/
theorem read_sample_of_squash (h0 : 1 ≤ s.arg0.toInt) (h1 : 1 ≤ s.arg1.toInt) (h : exec .squash s = .next t) {row col : Nat}
    (hrow : row < s.dstHeight.toNat) (hcol : col < s.dstWidth.toNat) (hin : SampleInRange s row col) :
    ∃ v, s.pmem.read (sampleAddr s row col) = some v ∧ t.pmem.read (dstAddr s row col) = some v := by
  have hn := firstError_squash_of_ready hr h0 h1
  obtain ⟨o, ho⟩ := cellOf_ok_of_exec rfl hn h hrow hcol
  obtain ⟨-, hstored, -⟩ := pmem_of_exec rfl hn h
  have hcell := hstored row col o hrow hcol ho
  rw [cellOf_squash hr h0 h1, if_pos hin, written_eq_ok] at ho
  obtain ⟨v, hv, rfl⟩ := ho
  exact ⟨v, engineRead_eq_ok.mp hv, hcell⟩

end WholeSource

/-- Settles O36: each of the four transforms has read the word if it answers a next state, so it stops. -/
theorem unwrittenSourceWordStopsTheTransform : Obligations.UnwrittenSourceWordStopsTheTransform := by
  intro s a hr ha hnone
  have hunwritten : ¬SrcWritten s := fun hw => by
    obtain ⟨v, hv⟩ := hw a ha
    rw [hnone] at hv
    cases hv
  refine ⟨fun ew eh => ?_, fun ew eh hd => ?_, fun ew eh => ?_, fun h0 h1 row col hrow hcol hinrow hincol haddr => ?_⟩
  · exact exec_fault_of_not_next fun t h => hunwritten (srcWritten_of_colorRotate hr ew eh h)
  · exact exec_fault_of_not_next fun t h => hunwritten (srcWritten_of_blur hr ew eh hd h)
  · exact exec_fault_of_not_next fun t h => hunwritten (srcWritten_of_expand hr ew eh h)
  · subst haddr
    refine exec_fault_of_not_next fun t h => ?_
    obtain ⟨v, hv, -⟩ := read_sample_of_squash hr h0 h1 h hrow hcol ⟨hinrow, hincol⟩
    rw [hnone] at hv
    cases hv

end Sys2Proof.Machine
end

section
/-!
SUPPORT. Pixels: the averaging helper on a list in any order (R123), the laws of the rotation (R172), and the raster after three rotations.
`AverageIsTheTruncatedLaneMean`, `RotationHasOrderThree` and `ThreeRotationsRestoreTheRaster` are settled from these.
-/

namespace Sys2Proof.Machine

/-! ## The averaging helper -/

/-- The sum of a channel does not depend on the order of the pixels. -/
theorem channelSum_perm (ch : Word → Nat) {l l' : List Word} (h : l.Perm l') : channelSum ch l = channelSum ch l' :=
  (h.map ch).sum_eq

/-- The mean does not depend on the order of the pixels (R123). -/
theorem avg_perm {l l' : List Word} (h : l.Perm l') : avg l = avg l' := by
  simp only [avg, h.length_eq, channelSum_perm _ h]

/-- Settles O11: each lane is its sum divided by the count, a channel value since no pixel's channel reaches 256. -/
theorem averageIsTheTruncatedLaneMean : Obligations.AverageIsTheTruncatedLaneMean := by
  refine ⟨fun l hl => ?_, fun _ _ => avg_perm, avg_nil⟩
  obtain ⟨q, hq, hR, hG, hB, hA⟩ := avg_spec hl
  refine ⟨q, hq, ?_⟩
  simp only [List.forall_mem_cons, List.not_mem_nil, false_implies, implies_true, and_true]
  exact ⟨⟨channelMean_lt chR_lt l, hR⟩, ⟨channelMean_lt chG_lt l, hG⟩, ⟨channelMean_lt chB_lt l, hB⟩, ⟨channelMean_lt chA_lt l, hA⟩⟩

/-! ## The rotation -/

/-- Two pixels are equal exactly when their four channels are. -/
theorem pixel_ext_iff {p q : Word} : p = q ↔ chR p = chR q ∧ chG p = chG q ∧ chB p = chB q ∧ chA p = chA q :=
  ⟨fun h => h ▸ ⟨rfl, rfl, rfl, rfl⟩, fun ⟨hR, hG, hB, hA⟩ => pixel_ext hR hG hB hA⟩

/-- The rotation has order three (R172). -/
theorem rot_rot_rot (p : Word) : rot (rot (rot p)) = p := pixel_ext (by simp) (by simp) (by simp) (by simp)

/-- Twice the rotation is the rotation the other way (R172). -/
theorem rot_rot (p : Word) : rot (rot p) = pack (chG p) (chB p) (chR p) (chA p) := by
  simp only [rot, chR_pack, chG_pack, chB_pack, chA_pack, Nat.mod_eq_of_lt (chR_lt p), Nat.mod_eq_of_lt (chG_lt p),
    Nat.mod_eq_of_lt (chB_lt p), Nat.mod_eq_of_lt (chA_lt p)]

/-- The rotation fixes the pixels with equal red, green and blue (R172). -/
theorem rot_eq_self_iff (p : Word) : rot p = p ↔ chR p = chG p ∧ chG p = chB p := by
  rw [pixel_ext_iff, chR_rot, chG_rot, chB_rot, chA_rot]
  exact ⟨fun ⟨_, hRG, hGB, _⟩ => ⟨hRG, hGB⟩, fun ⟨hRG, hGB⟩ => ⟨(hRG.trans hGB).symm, hRG, hGB, rfl⟩⟩

/-- The square of the rotation fixes the same pixels: the rotation undoes it, and so fixes what it fixes (R172). -/
theorem rot_rot_eq_self_iff (p : Word) : rot (rot p) = p ↔ chR p = chG p ∧ chG p = chB p := by
  rw [← rot_eq_self_iff]
  constructor
  · intro h
    calc rot p = rot (rot (rot p)) := by rw [h]
      _ = p := rot_rot_rot p
  · intro h
    rw [h, h]

/-- Settles O17: the laws of the rotation, channel by channel. -/
theorem rotationHasOrderThree : Obligations.RotationHasOrderThree :=
  fun p => ⟨rot_rot_rot p, rot_rot p, rot_rot_eq_self_iff p, rot_eq_self_iff p, chA_rot p⟩

/-! ## Three rotations of a raster -/

/-- A command that ends outside the error state has passed its checks (R202, R203). -/
theorem firstError_none_of_errFlag {i : Instr} {s t : State} (h : exec i s = .next t) (he : errFlag t.status = false) :
    firstError (checksOf i s) = none := by
  obtain ⟨e, -, rfl⟩ | ⟨-, hn, -⟩ | ⟨-, hn, -⟩ := exec_next_cases h
  · have hset : errFlag (raiseError e (encode i) s).status = true := errFlag_errorStatus ..
    rw [he] at hset
    cases hset
  · exact hn
  · exact hn

/-- A word of a Written SRC is the source pixel. -/
theorem read_srcAddr_of_written {s : State} (hs : SrcFits s) (hw : SrcWritten s) {row col : Nat} (hrow : row < s.srcHeight.toNat)
    (hcol : col < s.srcWidth.toNat) : s.pmem.read (srcAddr s row col) = some (srcPixel s row col) := by
  obtain ⟨v, hv⟩ := hw _ (inSrc_srcAddr hs hrow hcol)
  rw [srcPixel, hv, Option.getD_some]

/-- What a COLOR_ROTATE that ends without an error has found and left: rasters of one size, a Written SRC, and in each cell of DST its
source pixel rotated (R171). -/
theorem colorRotate_of_next {s t : State} (h : exec .colorRotate s = .next t) (he : errFlag t.status = false) :
    t = s.setPmem t.pmem ∧ s.dstWidth = s.srcWidth ∧ s.dstHeight = s.srcHeight ∧ SrcFits s ∧ SrcWritten s ∧
      ∀ row col, row < s.srcHeight.toNat → col < s.srcWidth.toNat →
        t.pmem.read (dstAddr s row col) = some (rot (srcPixel s row col)) := by
  have hn := firstError_none_of_errFlag h he
  obtain ⟨hr, hsize⟩ := transformReady_of_firstError hn
  obtain ⟨hw, hh, -⟩ := checkSameSize_none hsize
  have ew := BitVec.eq_of_toInt_eq hw
  have eh := BitVec.eq_of_toInt_eq hh
  have hwritten := srcWritten_of_colorRotate hr ew eh h
  obtain ⟨m, hx, hread, -⟩ := exec_colorRotate_reads hr ew eh hwritten
  obtain rfl : s.setPmem m = t := Host.Outcome.next.inj (hx.symm.trans h)
  exact ⟨rfl, ew, eh, hr.1, hwritten, hread⟩

/-- The source pixels after a COLOR_ROTATE of which SRC is now where DST was, at the same size, are the old ones rotated. -/
theorem srcPixel_of_colorRotate {s t : State} (h : exec .colorRotate s = .next t) (he : errFlag t.status = false) (c : Word)
    {row col : Nat} (hrow : row < s.srcHeight.toNat) (hcol : col < s.srcWidth.toNat) :
    srcPixel { t with srcBase := s.dstBase, dstBase := c } row col = rot (srcPixel s row col) := by
  obtain ⟨ht, ew, -, -, -, hread⟩ := colorRotate_of_next h he
  have haddr : srcAddr { t with srcBase := s.dstBase, dstBase := c } row col = dstAddr s row col := by
    rw [ht, dstAddr, ew]
    rfl
  rw [srcPixel, haddr, hread row col hrow hcol, Option.getD_some]

/-- Settles O18: each command rotates every pixel into a raster of the same size, and three rotations of a pixel give it back. -/
theorem threeRotationsRestoreTheRaster : Obligations.ThreeRotationsRestoreTheRaster := by
  intro s t₁ t₂ t₃ c d he h₁ hs₁ h₂ hs₂ h₃ hs₃ row col hrow hcol
  have he₁ : errFlag t₁.status = false := hs₁ ▸ he
  have he₂ : errFlag t₂.status = false := hs₂ ▸ he
  have he₃ : errFlag t₃.status = false := hs₃ ▸ he
  obtain ⟨ht₁, -, -, hsrc, hwritten, -⟩ := colorRotate_of_next h₁ he₁
  have hpixel₂ := srcPixel_of_colorRotate h₁ he₁ c hrow hcol
  obtain ⟨m₁, rfl⟩ : ∃ m, t₁ = s.setPmem m := ⟨_, ht₁⟩
  obtain ⟨ht₂, -⟩ := colorRotate_of_next h₂ he₂
  have hpixel₃ := srcPixel_of_colorRotate h₂ he₂ d hrow hcol
  obtain ⟨m₂, rfl⟩ : ∃ m, t₂ = State.setPmem _ m := ⟨_, ht₂⟩
  obtain ⟨ht₃, -, -, -, -, hread⟩ := colorRotate_of_next h₃ he₃
  have hlast := hread row col hrow hcol
  obtain ⟨m₃, rfl⟩ : ∃ m, t₃ = State.setPmem _ m := ⟨_, ht₃⟩
  rw [read_srcAddr_of_written hsrc hwritten hrow hcol, ← rot_rot_rot (srcPixel s row col), ← hpixel₂, ← hpixel₃]
  exact hlast

end Sys2Proof.Machine
end

section
/-!
SUPPORT. Laws of BLUR and EXPAND: the size of the window (R180), the two ends of blurDist (R183), and the cells of EXPAND whose window is one
pixel or one value (R192), which SQUASH by 2 samples (L3-4). `BlurWindowSize`, `BlurOfDistanceZeroIsACopy`, `BlurSaturates`, `ExpandLaws`
and `SquashUndoesExpand` are settled from these.
-/

namespace Sys2Proof.Machine

/-! ## The size of the window -/

/-- The window has a pixel for each row and column of its clamped sides (R180). -/
theorem windowCells_length {sh sw d row col : Nat} (hr : row < sh) (hc : col < sw) :
    (windowCells sh sw d row col).length =
      (min (sh - 1) (row + d) - (row - d) + 1) * (min (sw - 1) (col + d) - (col - d) + 1) := by
  have hrows : min (sh - 1) (row + d) + 1 - (row - d) = min (sh - 1) (row + d) - (row - d) + 1 := by omega
  have hcols : min (sw - 1) (col + d) + 1 - (col - d) = min (sw - 1) (col + d) - (col - d) + 1 := by omega
  simp [windowCells, upTo, List.length_flatMap, hrows, hcols]

/-- Settles O20: each clamped side is at least 1, at most the side of the raster and at most 2d+1. -/
theorem blurWindowSize : Obligations.BlurWindowSize := by
  intro sh sw d row col hr hc
  have hlength := windowCells_length (d := d) hr hc
  refine ⟨hlength, ?_, ?_, ?_⟩ <;> rw [hlength]
  · exact Nat.mul_pos (Nat.succ_pos _) (Nat.succ_pos _)
  · rw [Nat.mul_comm sw sh]
    exact Nat.mul_le_mul (by omega) (by omega)
  · rw [pow_two]
    exact Nat.mul_le_mul (by omega) (by omega)

/-! ## Means over a window -/

/-- The mean over pixels of one value is that value. -/
theorem laneMean_of_const {s : State} {w : Finset (Nat × Nat)} {v : Word} (ch : Word → Nat) (hne : w.Nonempty)
    (h : ∀ p ∈ w, srcPixel s p.1 p.2 = v) : laneMean s ch w = ch v := by
  have hsum : ∑ p ∈ w, ch (srcPixel s p.1 p.2) = w.card * ch v := by
    rw [Finset.sum_congr rfl fun p hp => by rw [h p hp], Finset.sum_const, smul_eq_mul]
  rw [laneMean, hsum, Nat.mul_div_cancel_left _ (Finset.card_pos.mpr hne)]

/-- The mean over one pixel is that pixel's channel. -/
theorem laneMean_singleton (s : State) (ch : Word → Nat) (row col : Nat) :
    laneMean s ch {(row, col)} = ch (srcPixel s row col) :=
  laneMean_of_const ch (Finset.singleton_nonempty _) fun p hp => by rw [Finset.mem_singleton.mp hp]

/-! ## The two ends of blurDist -/

/-- BLUR computes one pixel for a cell. -/
theorem IsBlurPixel.unique {s : State} {row col : Nat} {p q : Word} (hp : IsBlurPixel s row col p) (hq : IsBlurPixel s row col q) :
    p = q := by
  obtain ⟨hR, hG, hB, hA⟩ := hp
  obtain ⟨hR', hG', hB', hA'⟩ := hq
  exact pixel_ext (hR.trans hR'.symm) (hG.trans hG'.symm) (hB.trans hB'.symm) (hA.trans hA'.symm)

section BlurWindow

variable {s : State} {row col : Nat} (hrow : row < s.srcHeight.toNat) (hcol : col < s.srcWidth.toNat)
include hrow hcol

/-- With distance 0 the window is the centre (R183). -/
theorem blurWindow_zero : blurWindow s 0 row col = {(row, col)} := by
  ext ⟨r, c⟩
  simp only [blurWindow, Finset.mem_filter, Finset.mem_product, Finset.mem_range, abs_le, Finset.mem_singleton, Prod.mk.injEq]
  omega

/-- With a distance of at least the sides less 1 the window is the whole raster (R183). -/
theorem blurWindow_of_saturated {d : Int} (hw : (s.srcWidth.toNat : Int) - 1 ≤ d) (hh : (s.srcHeight.toNat : Int) - 1 ≤ d) :
    blurWindow s d row col = Finset.range s.srcHeight.toNat ×ˢ Finset.range s.srcWidth.toNat := by
  refine Finset.filter_true_of_mem fun p hp => ?_
  simp only [Finset.mem_product, Finset.mem_range] at hp
  simp only [abs_le]
  omega

/-- With blurDist 0 the blur pixel is the source pixel (R183). -/
theorem IsBlurPixel.eq_srcPixel {q : Word} (h : IsBlurPixel s row col q) (h0 : s.arg0 = 0#32) : q = srcPixel s row col := by
  have hzero : s.arg0.toInt = 0 := by rw [h0]; rfl
  obtain ⟨hR, hG, hB, hA⟩ := h
  rw [hzero, blurWindow_zero hrow hcol, laneMean_singleton] at hR hG hB
  exact pixel_ext hR hG hB hA

end BlurWindow

/-- Settles O21: the window of a cell is its centre, so its blur pixel is the source pixel, a Written word. -/
theorem blurOfDistanceZeroIsACopy : Obligations.BlurOfDistanceZeroIsACopy := by
  intro s hr ew eh h0 hw
  obtain ⟨m, hx, hread, -⟩ := exec_blur_reads (by rw [h0]; decide) hr ew eh hw
  refine ⟨m, hx, fun row col hrow hcol => ?_⟩
  obtain ⟨q, hq, hpixel⟩ := hread row col hrow hcol
  rw [hq, hpixel.eq_srcPixel hrow hcol h0, read_srcAddr_of_written hr.1 hw hrow hcol]

/-- Blur pixels of two distances with the same window are the same. -/
theorem isBlurPixel_of_window_eq {s : State} {v q : Word} {row col : Nat}
    (hwindow : blurWindow s v.toInt row col = blurWindow s s.arg0.toInt row col) (h : IsBlurPixel { s with arg0 := v } row col q) :
    IsBlurPixel s row col q := by
  rw [IsBlurPixel, ← hwindow]
  exact h

/-- Settles O22: both windows of a cell are the whole raster, so both commands leave the same word in each cell, and the same words outside
DST. -/
theorem blurSaturates : Obligations.BlurSaturates := by
  intro s v hr ew eh hw hwf hws hhs hwv hhv
  have ⟨hsrc, hdst, _⟩ := hr
  have ⟨hwidth, hheight, _⟩ := hsrc
  obtain ⟨m, hx, hread, hout⟩ := exec_blur_reads (by omega) hr ew eh hw
  obtain ⟨m', hx', hread', hout'⟩ := exec_blur_reads (s := { s with arg0 := v }) (show 0 ≤ v.toInt by omega) hr ew eh hw
  rw [toInt_eq_toNat_of_pos hwidth] at hws hwv
  rw [toInt_eq_toNat_of_pos hheight] at hhs hhv
  obtain rfl : m' = m := by
    refine Memory.ext_read (pmem_wf_of_exec hx' hwf) (pmem_wf_of_exec hx hwf) fun a => ?_
    by_cases ha : InDst s a
    · obtain ⟨row, col, hrow, hcol, rfl⟩ := exists_dstAddr hdst ha
      rw [eh] at hrow
      rw [ew] at hcol
      obtain ⟨q, hq, hpixel⟩ := hread row col hrow hcol
      obtain ⟨q', hq', hpixel'⟩ := hread' row col hrow hcol
      have hwindow : blurWindow s v.toInt row col = blurWindow s s.arg0.toInt row col :=
        (blurWindow_of_saturated hrow hcol hwv hhv).trans (blurWindow_of_saturated hrow hcol hws hhs).symm
      rw [hq, hpixel.unique (isBlurPixel_of_window_eq hwindow hpixel')]
      exact hq'
    · exact (hout' a ha).trans (hout a ha).symm
  exact ⟨m', hx, hx'⟩

/-! ## The cells of EXPAND -/

section ExpandPixel

variable {s : State} {i j : Nat} {q : Word}

/-- Cells with the same candidates have the same pixel. -/
theorem IsExpandPixel.eq_of_window_eq {i' j' : Nat} {q' : Word} (h : IsExpandPixel s i j q) (h' : IsExpandPixel s i' j' q')
    (hwindow : expandWindow s i j = expandWindow s i' j') : q = q' := by
  obtain ⟨hR, hG, hB, hA⟩ := h
  obtain ⟨hR', hG', hB', hA'⟩ := h'
  rw [hwindow] at hR hG hB hA
  exact pixel_ext (hR.trans hR'.symm) (hG.trans hG'.symm) (hB.trans hB'.symm) (hA.trans hA'.symm)

/-- A cell whose candidates have one value has that value (R192). -/
theorem IsExpandPixel.eq_of_const {v : Word} (h : IsExpandPixel s i j q) (hne : (expandWindow s i j).Nonempty)
    (hconst : ∀ p ∈ expandWindow s i j, srcPixel s p.1 p.2 = v) : q = v := by
  obtain ⟨hR, hG, hB, hA⟩ := h
  rw [laneMean_of_const _ hne hconst] at hR hG hB hA
  exact pixel_ext hR hG hB hA

/-- An even cell has one candidate (R190). -/
theorem expandWindow_even {row col : Nat} (hrow : row < s.srcHeight.toNat) (hcol : col < s.srcWidth.toNat) :
    expandWindow s (2 * row) (2 * col) = {(row, col)} := by
  ext ⟨r, c⟩
  simp only [expandWindow, Finset.mem_filter, Finset.mem_product, Finset.mem_range, Finset.mem_singleton, Prod.mk.injEq]
  omega

/-- An even cell is a copy of its source pixel (R192). -/
theorem IsExpandPixel.eq_srcPixel {row col : Nat} (h : IsExpandPixel s (2 * row) (2 * col) q) (hrow : row < s.srcHeight.toNat)
    (hcol : col < s.srcWidth.toNat) : q = srcPixel s row col := by
  have hwindow := expandWindow_even hrow hcol
  refine h.eq_of_const (hwindow ▸ Finset.singleton_nonempty _) fun p hp => ?_
  rw [hwindow, Finset.mem_singleton] at hp
  rw [hp]

/-- The candidates of a cell are inside the bounds of SRC (R190). -/
theorem inside_of_mem_expandWindow {p : Nat × Nat} (h : p ∈ expandWindow s i j) : p.1 < s.srcHeight.toNat ∧ p.2 < s.srcWidth.toNat := by
  rw [expandWindow, Finset.mem_filter, Finset.mem_product, Finset.mem_range, Finset.mem_range] at h
  exact h.1

/-- A cell below twice the size of SRC has a candidate (R190). -/
theorem expandWindow_nonempty (hi : i < 2 * s.srcHeight.toNat) (hj : j < 2 * s.srcWidth.toNat) : (expandWindow s i j).Nonempty := by
  refine ⟨(i / 2, j / 2), ?_⟩
  rw [expandWindow, Finset.mem_filter, Finset.mem_product, Finset.mem_range, Finset.mem_range]
  exact ⟨⟨by omega, by omega⟩, .inl rfl, .inl rfl⟩

/-- In a source of one row the odd row has the candidates of the even one (R192). -/
theorem expandWindow_one_row (h : s.srcHeight = 1#32) (j : Nat) : expandWindow s 1 j = expandWindow s 0 j := by
  have hone : s.srcHeight.toNat = 1 := by rw [h]; rfl
  ext ⟨r, c⟩
  simp only [expandWindow, hone, Finset.mem_filter, Finset.mem_product, Finset.mem_range]
  omega

/-- In a source of one column the odd column has the candidates of the even one (R192). -/
theorem expandWindow_one_column (h : s.srcWidth = 1#32) (i : Nat) : expandWindow s i 1 = expandWindow s i 0 := by
  have hone : s.srcWidth.toNat = 1 := by rw [h]; rfl
  ext ⟨r, c⟩
  simp only [expandWindow, hone, Finset.mem_filter, Finset.mem_product, Finset.mem_range]
  omega

end ExpandPixel

/-- What EXPAND leaves in the even cells on a Written SRC: copies of the words of SRC (R192). -/
theorem read_even_of_expand {s : State} {m : Memory} (hs : SrcFits s) (hw : SrcWritten s)
    (hread : ∀ i j, i < 2 * s.srcHeight.toNat → j < 2 * s.srcWidth.toNat → ∃ q, m.read (dstAddr s i j) = some q ∧ IsExpandPixel s i j q)
    {row col : Nat} (hrow : row < s.srcHeight.toNat) (hcol : col < s.srcWidth.toNat) :
    m.read (dstAddr s (2 * row) (2 * col)) = s.pmem.read (srcAddr s row col) := by
  obtain ⟨q, hq, hpixel⟩ := hread (2 * row) (2 * col) (by omega) (by omega)
  rw [hq, hpixel.eq_srcPixel hrow hcol, read_srcAddr_of_written hs hw hrow hcol]

/-- Settles O24: each law compares the candidates of cells: one pixel, one value, or the same set for two cells. -/
theorem expandLaws : Obligations.ExpandLaws := by
  intro s hr ew eh hw
  have ⟨hsrc, hdst, _⟩ := hr
  have ⟨hwidth, hheight, _⟩ := hsrc
  obtain ⟨m, hx, hread, -⟩ := exec_expand_reads hr ew eh hw
  refine ⟨m, hx, fun row col => read_even_of_expand hsrc hw hread, fun v hv a ha => ?_, fun hone j hj => ?_, fun hone i hi => ?_⟩
  · obtain ⟨i, j, hi, hj, rfl⟩ := exists_dstAddr hdst ha
    rw [toNat_eq_two_mul_of_toInt hheight eh] at hi
    rw [toNat_eq_two_mul_of_toInt hwidth ew] at hj
    obtain ⟨q, hq, hpixel⟩ := hread i j hi hj
    rw [hq, hpixel.eq_of_const (expandWindow_nonempty hi hj) fun p hp => ?_]
    obtain ⟨hrow, hcol⟩ := inside_of_mem_expandWindow hp
    rw [srcPixel, hv _ (inSrc_srcAddr hsrc hrow hcol), Option.getD_some]
  · have hrows : s.srcHeight.toNat = 1 := by rw [hone]; rfl
    obtain ⟨q, hq, hpixel⟩ := hread 0 j (by omega) hj
    obtain ⟨q', hq', hpixel'⟩ := hread 1 j (by omega) hj
    rw [hq, hq', hpixel'.eq_of_window_eq hpixel (expandWindow_one_row hone j)]
  · have hcols : s.srcWidth.toNat = 1 := by rw [hone]; rfl
    obtain ⟨q, hq, hpixel⟩ := hread i 0 hi (by omega)
    obtain ⟨q', hq', hpixel'⟩ := hread i 1 hi (by omega)
    rw [hq, hq', hpixel'.eq_of_window_eq hpixel (expandWindow_one_column hone i)]

/-! ## SQUASH by 2 after EXPAND -/

/-- What an EXPAND that ends without an error has found and left: a DST of twice the size, a Written SRC, and copies of SRC in the even
cells (R191, R192). -/
theorem expand_of_next {s t : State} (h : exec .expand s = .next t) (he : errFlag t.status = false) :
    t = s.setPmem t.pmem ∧ s.dstWidth.toNat = 2 * s.srcWidth.toNat ∧ s.dstHeight.toNat = 2 * s.srcHeight.toNat ∧
      SrcFits s ∧ SrcWritten s ∧ ∀ row col, row < s.srcHeight.toNat → col < s.srcWidth.toNat →
        t.pmem.read (dstAddr s (2 * row) (2 * col)) = s.pmem.read (srcAddr s row col) := by
  obtain ⟨hr, hsize⟩ := transformReady_of_firstError (firstError_none_of_errFlag h he)
  obtain ⟨ew, eh, -⟩ := checkDoubleSize_none hsize
  have ⟨hsrc, _, _⟩ := hr
  have ⟨hwidth, hheight, _⟩ := hsrc
  have hw := srcWritten_of_expand hr ew eh h
  obtain ⟨m, hx, hread, -⟩ := exec_expand_reads hr ew eh hw
  obtain rfl : s.setPmem m = t := Host.Outcome.next.inj (hx.symm.trans h)
  exact ⟨rfl, toNat_eq_two_mul_of_toInt hwidth ew, toNat_eq_two_mul_of_toInt hheight eh, hsrc, hw,
    fun row col => read_even_of_expand hsrc hw hread⟩

/-- What a SQUASH with both factors 2 that ends without an error leaves in a cell whose source cell is inside SRC: its word (R160). -/
theorem squash_two_of_next {s t : State} (h : exec .squash s = .next t) (he : errFlag t.status = false) (h0 : s.arg0 = 2#32)
    (h1 : s.arg1 = 2#32) {row col : Nat} (hrow : row < s.dstHeight.toNat) (hcol : col < s.dstWidth.toNat)
    (hin : 2 * row < s.srcHeight.toNat ∧ 2 * col < s.srcWidth.toNat) :
    t.pmem.read (dstAddr t row col) = s.pmem.read (srcAddr s (2 * row) (2 * col)) := by
  have hn := firstError_none_of_errFlag h he
  obtain ⟨hr, -⟩ := transformReady_of_firstError hn
  have hf0 : s.arg0.toNat = 2 := by rw [h0]; rfl
  have hf1 : s.arg1.toNat = 2 := by rw [h1]; rfl
  have hsample : SampleInRange s row col := by rwa [SampleInRange, hf0, hf1, Nat.mul_comm row, Nat.mul_comm col]
  have hsampled : sampleAddr s row col = srcAddr s (2 * row) (2 * col) := by
    rw [sampleAddr, hf0, hf1, Nat.mul_comm row, Nat.mul_comm col]
  obtain ⟨ht, -⟩ := pmem_of_exec rfl hn h
  have hcell : dstAddr t row col = dstAddr s row col := by rw [ht]; rfl
  obtain ⟨v, hread, hleft⟩ := read_sample_of_squash hr (by rw [h0]; decide) (by rw [h1]; decide) h hrow hcol hsample
  rw [hcell, hleft, ← hsampled, hread]

/-- Settles O25: SQUASH by 2 samples the even cells of the raster EXPAND left, which are copies of the first source. -/
theorem squashUndoesExpand : Obligations.SquashUndoesExpand := by
  intro s t u b he h hs h' hs' row col hrow hcol
  have het : errFlag t.status = false := hs ▸ he
  have heu : errFlag u.status = false := hs' ▸ he
  obtain ⟨-, hwidth, hheight, -, -, heven⟩ := expand_of_next h het
  have hin : 2 * row < s.dstHeight.toNat ∧ 2 * col < s.dstWidth.toNat := by omega
  rw [← heven row col hrow hcol]
  exact squash_two_of_next h' heu rfl rfl hrow hcol hin

end Sys2Proof.Machine
end
